-- ==== Sys2Proof/Word.lean ====
section
/-! DEFINITION. The word, byte, register-index and line types, and the integer views of a word
(00_scope.md section 4; 10_state.md R8; 20_memory.md R31; 30_encoding.md R52). -/

namespace Sys2Proof

/-- A word: 32 bits, bit 0 the least significant (00_scope.md section 4). -/
abbrev Word := BitVec 32

/-- The value of one location of the store (20_memory.md R31). -/
abbrev Byte := BitVec 8

/-- A register index, 0 to 31 (10_state.md R8). -/
abbrev Reg := Fin 32

/-- One line of instruction text: a finite string of characters (30_encoding.md R52, log 10). -/
abbrev Line := List Char

/-- The integer a word stands for in two's complement. -/
abbrev s32 (v : Word) : Int := v.toInt

/-- The integer in [0, 2^32-1] a word stands for. -/
abbrev u32 (v : Word) : Nat := v.toNat

/-- The unique word `v` with `u32 v = n mod 2^32`. -/
abbrev wrap32 (n : Int) : Word := BitVec.ofInt 32 n

end Sys2Proof
end

