-- ==== Sys2Proof/Config.lean ====
section
/-! DEFINITION. The parameters of the block, each with its value for this hardware
(00_scope.md R7). The spec leaves no value open, so there is no free value here. -/

namespace Sys2Proof.Config

/-- `BUCKET_COUNT` (00_scope.md R7, 10_state.md R22): a storage parameter only. -/
def bucketCount : Nat := 256

/-- `SHAMT_MASK` (00_scope.md R7). -/
def shamtMask : Word := 0x1f

/-- `LUI_SHIFT` (00_scope.md R7). -/
def luiShift : Nat := 12

/-- `IMM_MIN` = -2^31 (00_scope.md R7, decisions D7 and D8). -/
def immMin : Int := -2147483648

/-- `IMM_MAX` = 2^31-1 (00_scope.md R7, decisions D7 and D8). -/
def immMax : Int := 2147483647

/-- `ADDR_MIN` = -(2^31-1) (00_scope.md R7, decision D9; log 8). -/
def addrMin : Int := -2147483647

/-- `ADDR_MAX` = 2^31-1 (00_scope.md R7, decision D9; log 8). -/
def addrMax : Int := 2147483647

end Sys2Proof.Config
end

