-- ==== Sys2Proof/Syntax.lean ====
section
/-! DEFINITION. The nineteen instructions, their categories, the decoder's answers and the decoded
record (30_encoding.md R54, R66 to R68; opcode_table.json). -/

namespace Sys2Proof

/-- The instructions, one constructor per row of the opcode table, operands in text order
(30_encoding.md R59 to R62). An immediate or offset is the parsed integer; `Instr.wf` bounds it.
For `sw` and `sb` the first register is the `rd` field of 30_encoding.md R67. -/
inductive Instr where
  | add (rd rs1 rs2 : Reg)
  | sub (rd rs1 rs2 : Reg)
  | and (rd rs1 rs2 : Reg)
  | or (rd rs1 rs2 : Reg)
  | xor (rd rs1 rs2 : Reg)
  | nor (rd rs1 rs2 : Reg)
  | slt (rd rs1 rs2 : Reg)
  | sll (rd rs1 rs2 : Reg)
  | sra (rd rs1 rs2 : Reg)
  | addi (rd rs1 : Reg) (imm : Int)
  | andi (rd rs1 : Reg) (imm : Int)
  | ori (rd rs1 : Reg) (imm : Int)
  | xori (rd rs1 : Reg) (imm : Int)
  | slti (rd rs1 : Reg) (imm : Int)
  | lw (rd : Reg) (off : Int) (rs2 : Reg)
  | lb (rd : Reg) (off : Int) (rs2 : Reg)
  | sw (rd : Reg) (off : Int) (rs2 : Reg)
  | sb (rd : Reg) (off : Int) (rs2 : Reg)
  | lui (rd : Reg) (imm : Int)
  deriving DecidableEq, Repr

/-- The R_TYPE operations, in the order of 30_encoding.md R54 and R68. -/
inductive ROp where
  | add | sub | and | or | xor | nor | slt | sll | sra
  deriving DecidableEq, Repr

/-- The I_TYPE operations. -/
inductive IOp where
  | addi | andi | ori | xori | slti
  deriving DecidableEq, Repr

/-- The MEM_TYPE operations. -/
inductive MemOp where
  | lw | lb | sw | sb
  deriving DecidableEq, Repr

/-- The one U_TYPE operation. -/
inductive UOp where
  | lui
  deriving DecidableEq, Repr

/-- What classification gives for a mnemonic: a category and an operation in it, or UNKNOWN
(30_encoding.md R54). -/
inductive Class where
  | rType (op : ROp)
  | iType (op : IOp)
  | memType (op : MemOp)
  | uType (op : UOp)
  | unknown
  deriving DecidableEq, Repr

/-- The two errors the decoder can raise (30_encoding.md R66). -/
inductive DecodeError where
  /-- The shape of the operand string is wrong (30_encoding.md R58). -/
  | invalidInstruction
  /-- A token is not acceptable (30_encoding.md R63 to R65). -/
  | invalidOperand
  deriving DecidableEq, Repr

/-- The decoder's answer to a line, exactly one of three (30_encoding.md R66). -/
inductive Decoded where
  /-- A valid instruction. -/
  | instr (i : Instr)
  /-- An UNKNOWN mnemonic: the line is skipped, which is no error (30_encoding.md R56). -/
  | skipped
  /-- A known mnemonic with a malformed operand string. -/
  | error (e : DecodeError)
  deriving DecidableEq, Repr

/-- The decoded instruction the decoder hands the engine, as fields (30_encoding.md R67). No program
observes its layout. -/
structure Record where
  cat : BitVec 3
  op : BitVec 4
  rd : BitVec 5
  rs1 : BitVec 5
  rs2 : BitVec 5
  imm : BitVec 32
  deriving DecidableEq, Repr

end Sys2Proof
end

