-- ==== Sys2Proof/WellFormed.lean ====
section
/-! DEFINITION. Which instructions are well formed: every immediate and offset lies in
[IMM_MIN, IMM_MAX] (30_encoding.md R64, R65, R69). A register index is 0 to 31 by its type. -/

namespace Sys2Proof

/-- An integer an immediate or offset field can hold. -/
def immInRange (n : Int) : Bool :=
  decide (Config.immMin ≤ n ∧ n ≤ Config.immMax)

/-- A term of `Instr` that some line of text stands for. -/
def Instr.wf : Instr → Bool
  | .add _ _ _ => true
  | .sub _ _ _ => true
  | .and _ _ _ => true
  | .or _ _ _ => true
  | .xor _ _ _ => true
  | .nor _ _ _ => true
  | .slt _ _ _ => true
  | .sll _ _ _ => true
  | .sra _ _ _ => true
  | .addi _ _ imm => immInRange imm
  | .andi _ _ imm => immInRange imm
  | .ori _ _ imm => immInRange imm
  | .xori _ _ imm => immInRange imm
  | .slti _ _ imm => immInRange imm
  | .lw _ off _ => immInRange off
  | .lb _ off _ => immInRange off
  | .sw _ off _ => immInRange off
  | .sb _ off _ => immInRange off
  | .lui _ imm => immInRange imm

end Sys2Proof
end

