-- ==== Sys2Proof/Decode.lean ====
section
/-! DEFINITION. The Instruction Decoder, total on every line of text (30_encoding.md), then the
encoder that writes a line for an instruction, the decoded record of R67, and the reading of a table
word as a line. -/

namespace Sys2Proof

/-! ## The line and its mnemonic -/

/-- Splits a line at its first space: the mnemonic before it, the operand string after it. A line
with no space is all mnemonic (30_encoding.md R53, log 12). -/
def splitLine (l : Line) : Line × Line :=
  (l.takeWhile (· != ' '), (l.dropWhile (· != ' ')).drop 1)

/-- The table of 30_encoding.md R54: the whole mnemonic and what it selects. -/
def classTable : List (Line × Class) :=
  [ ("add".toList, .rType .add), ("sub".toList, .rType .sub), ("and".toList, .rType .and),
    ("or".toList, .rType .or), ("xor".toList, .rType .xor), ("nor".toList, .rType .nor),
    ("slt".toList, .rType .slt), ("sll".toList, .rType .sll), ("sra".toList, .rType .sra) ] ++
  [ ("addi".toList, .iType .addi), ("andi".toList, .iType .andi), ("ori".toList, .iType .ori),
    ("xori".toList, .iType .xori), ("slti".toList, .iType .slti) ] ++
  [ ("lw".toList, .memType .lw), ("lb".toList, .memType .lb), ("sw".toList, .memType .sw),
    ("sb".toList, .memType .sb) ] ++
  [ ("lui".toList, .uType .lui) ]

/-- Classification: a static lookup of the whole mnemonic, character by character; every other
string is UNKNOWN (30_encoding.md R54, R55). -/
def classify (mn : Line) : Class :=
  (classTable.lookup mn).getD .unknown

/-! ## The operand string -/

/-- The whitespace characters U+0020 and U+0009 to U+000D (30_encoding.md R57, log 12). -/
def isWhitespace (c : Char) : Bool :=
  c.toNat == 0x20 || (0x09 ≤ c.toNat && c.toNat ≤ 0x0D)

/-- Removes every whitespace character (30_encoding.md R57). -/
def removeWhitespace (s : Line) : Line :=
  s.filter (fun c => !isWhitespace c)

/-- Splits at every comma; `k` commas give `k+1` pieces, and the empty string is one empty piece
(30_encoding.md R58). -/
def splitCommas : Line → List Line
  | [] => [[]]
  | c :: cs =>
    if c = ',' then [] :: splitCommas cs
    else
      match splitCommas cs with
      | [] => [[c]]
      | p :: ps => (c :: p) :: ps

/-- The pieces of an operand string (30_encoding.md R57, R58). -/
def pieces (ops : Line) : List Line :=
  splitCommas (removeWhitespace ops)

/-- The MEM_TYPE shape `o(b)`: exactly one `(` and one `)`, the `)` last, hence after the `(`
(30_encoding.md R58). Gives the offset token and the base token. -/
def splitOffset (t : Line) : Option (Line × Line) :=
  if t.count '(' = 1 ∧ t.count ')' = 1 ∧ t.getLast? = some ')' then
    some (t.takeWhile (· != '('), ((t.dropWhile (· != '(')).drop 1).dropLast)
  else none

/-! ## Tokens -/

/-- A decimal digit `0` to `9`. -/
def isDecDigit (c : Char) : Bool :=
  48 ≤ c.toNat && c.toNat ≤ 57

/-- A hexadecimal digit `0-9`, `a-f` or `A-F` (30_encoding.md R64). -/
def isHexDigit (c : Char) : Bool :=
  isDecDigit c || (97 ≤ c.toNat && c.toNat ≤ 102) || (65 ≤ c.toNat && c.toNat ≤ 70)

/-- The value of a hexadecimal digit. -/
def hexDigitVal (c : Char) : Nat :=
  if isDecDigit c then c.toNat - 48
  else if 97 ≤ c.toNat then c.toNat - 87
  else c.toNat - 55

/-- The decimal value of a string of digits. -/
def decVal (d : Line) : Nat :=
  d.foldl (fun n c => 10 * n + (c.toNat - 48)) 0

/-- The hexadecimal value of a string of hexadecimal digits. -/
def hexVal (h : Line) : Nat :=
  h.foldl (fun n c => 16 * n + hexDigitVal c) 0

/-- A register token `x<N>` (30_encoding.md R63, log 13). -/
def parseReg (t : Line) : Except DecodeError Reg :=
  match t with
  | 'x' :: d =>
    if d ≠ [] ∧ d.all isDecDigit = true then
      if h : decVal d ≤ 31 then .ok ⟨decVal d, by omega⟩ else .error .invalidOperand
    else .error .invalidOperand
  | _ => .error .invalidOperand

/-- The magnitude of a hexadecimal immediate after its prefix: some digits, at most 2^31-1
(30_encoding.md R64). -/
def parseHexMagnitude (h : Line) : Except DecodeError Int :=
  if h ≠ [] ∧ h.all isHexDigit = true ∧ (hexVal h : Int) ≤ Config.immMax then .ok (hexVal h)
  else .error .invalidOperand

/-- Digits with a sign, in range (30_encoding.md R64, R65). -/
def parseSigned (sign : Int) (body : Line) : Except DecodeError Int :=
  if body ≠ [] ∧ body.all isDecDigit = true ∧ immInRange (sign * decVal body) = true then
    .ok (sign * decVal body)
  else .error .invalidOperand

/-- A decimal immediate after its sign: 0 where it is non-numeric, that is empty or not begun by a
digit (30_encoding.md R64). -/
def parseDecimal (sign : Int) (body : Line) : Except DecodeError Int :=
  match body with
  | [] => .ok 0
  | c :: _ => if isDecDigit c then parseSigned sign body else .ok 0

/-- An immediate token of an I_TYPE or U_TYPE instruction (30_encoding.md R64). -/
def parseImm (t : Line) : Except DecodeError Int :=
  match t with
  | '0' :: 'x' :: h => parseHexMagnitude h
  | '-' :: '0' :: 'x' :: h => (parseHexMagnitude h).map (fun m => -m)
  | '-' :: body => parseDecimal (-1) body
  | '+' :: body => parseDecimal 1 body
  | body => parseDecimal 1 body

/-- An offset token of a MEM_TYPE instruction: signed decimal only (30_encoding.md R65, log 13). -/
def parseOff (t : Line) : Except DecodeError Int :=
  match t with
  | '-' :: body => parseSigned (-1) body
  | '+' :: body => parseSigned 1 body
  | body => parseSigned 1 body

/-! ## Formats: shape first, then the tokens in text order (60_exceptions.md R109) -/

/-- The instruction an R_TYPE operation names. -/
def ROp.instr (op : ROp) (rd rs1 rs2 : Reg) : Instr :=
  match op with
  | .add => .add rd rs1 rs2
  | .sub => .sub rd rs1 rs2
  | .and => .and rd rs1 rs2
  | .or => .or rd rs1 rs2
  | .xor => .xor rd rs1 rs2
  | .nor => .nor rd rs1 rs2
  | .slt => .slt rd rs1 rs2
  | .sll => .sll rd rs1 rs2
  | .sra => .sra rd rs1 rs2

/-- The instruction an I_TYPE operation names. -/
def IOp.instr (op : IOp) (rd rs1 : Reg) (imm : Int) : Instr :=
  match op with
  | .addi => .addi rd rs1 imm
  | .andi => .andi rd rs1 imm
  | .ori => .ori rd rs1 imm
  | .xori => .xori rd rs1 imm
  | .slti => .slti rd rs1 imm

/-- The instruction a MEM_TYPE operation names. -/
def MemOp.instr (op : MemOp) (rd : Reg) (off : Int) (rs2 : Reg) : Instr :=
  match op with
  | .lw => .lw rd off rs2
  | .lb => .lb rd off rs2
  | .sw => .sw rd off rs2
  | .sb => .sb rd off rs2

/-- The instruction the U_TYPE operation names. -/
def UOp.instr (op : UOp) (rd : Reg) (imm : Int) : Instr :=
  match op with
  | .lui => .lui rd imm

/-- R_TYPE: exactly three pieces, three register tokens (30_encoding.md R58, R59). -/
def parseR (op : ROp) (ps : List Line) : Except DecodeError Instr :=
  match ps with
  | [t1, t2, t3] => do
    let rd ← parseReg t1
    let rs1 ← parseReg t2
    let rs2 ← parseReg t3
    .ok (op.instr rd rs1 rs2)
  | _ => .error .invalidInstruction

/-- I_TYPE: exactly three pieces, two register tokens and an immediate (30_encoding.md R58, R60). -/
def parseI (op : IOp) (ps : List Line) : Except DecodeError Instr :=
  match ps with
  | [t1, t2, t3] => do
    let rd ← parseReg t1
    let rs1 ← parseReg t2
    let imm ← parseImm t3
    .ok (op.instr rd rs1 imm)
  | _ => .error .invalidInstruction

/-- MEM_TYPE: exactly two pieces, the second of the shape `o(b)`; a register token, an offset and a
base register token (30_encoding.md R58, R61). -/
def parseMem (op : MemOp) (ps : List Line) : Except DecodeError Instr :=
  match ps with
  | [t1, t2] =>
    match splitOffset t2 with
    | some (o, b) => do
      let rd ← parseReg t1
      let off ← parseOff o
      let rs2 ← parseReg b
      .ok (op.instr rd off rs2)
    | none => .error .invalidInstruction
  | _ => .error .invalidInstruction

/-- U_TYPE: exactly two pieces, a register token and an immediate (30_encoding.md R58, R62). -/
def parseU (op : UOp) (ps : List Line) : Except DecodeError Instr :=
  match ps with
  | [t1, t2] => do
    let rd ← parseReg t1
    let imm ← parseImm t2
    .ok (op.instr rd imm)
  | _ => .error .invalidInstruction

/-- A parse's answer as the decoder's answer. -/
def Decoded.ofParse : Except DecodeError Instr → Decoded
  | .ok i => .instr i
  | .error e => .error e

/-- The decoder (30_encoding.md R53 to R66): an UNKNOWN mnemonic is skipped and its operand string is
not looked at (R56). -/
def decode (l : Line) : Decoded :=
  match classify (splitLine l).1 with
  | .rType op => .ofParse (parseR op (pieces (splitLine l).2))
  | .iType op => .ofParse (parseI op (pieces (splitLine l).2))
  | .memType op => .ofParse (parseMem op (pieces (splitLine l).2))
  | .uType op => .ofParse (parseU op (pieces (splitLine l).2))
  | .unknown => .skipped

/-! ## The encoder: one line for each instruction, after the grammar of 30_encoding.md R72 -/

/-- The character of a decimal digit. -/
def digitChar (d : Nat) : Char := Char.ofNat (48 + d)

/-- The decimal digits of `n`, at most `fuel` of them, no leading zero. -/
def decDigits : (fuel : Nat) → (n : Nat) → Line
  | 0, _ => []
  | k + 1, n => if n < 10 then [digitChar n] else decDigits k (n / 10) ++ [digitChar (n % 10)]

/-- A natural number below 10^10 in decimal. -/
def natText (n : Nat) : Line := decDigits 10 n

/-- An integer in decimal, signed where it is negative. -/
def intText (n : Int) : Line :=
  if n < 0 then '-' :: natText n.natAbs else natText n.natAbs

/-- A register token without leading zeros (30_encoding.md R63). -/
def regText (r : Reg) : Line := 'x' :: natText r.val

/-- The text `<mn> a,b,c`. -/
def lineOf3 (mn : Line) (a b c : Line) : Line := mn ++ ' ' :: (a ++ ',' :: (b ++ ',' :: c))

/-- The text `<mn> a,b`. -/
def lineOf2 (mn : Line) (a b : Line) : Line := mn ++ ' ' :: (a ++ ',' :: b)

/-- The text `off(base)`. -/
def offsetText (off : Int) (base : Reg) : Line := intText off ++ '(' :: (regText base ++ [')'])

/-- The line of an instruction: its mnemonic, one space, its operands in decimal with no other
whitespace (30_encoding.md R59 to R62, R72; which spelling is the model's choice, log 18). -/
def encode : Instr → Line
  | .add rd rs1 rs2 => lineOf3 "add".toList (regText rd) (regText rs1) (regText rs2)
  | .sub rd rs1 rs2 => lineOf3 "sub".toList (regText rd) (regText rs1) (regText rs2)
  | .and rd rs1 rs2 => lineOf3 "and".toList (regText rd) (regText rs1) (regText rs2)
  | .or rd rs1 rs2 => lineOf3 "or".toList (regText rd) (regText rs1) (regText rs2)
  | .xor rd rs1 rs2 => lineOf3 "xor".toList (regText rd) (regText rs1) (regText rs2)
  | .nor rd rs1 rs2 => lineOf3 "nor".toList (regText rd) (regText rs1) (regText rs2)
  | .slt rd rs1 rs2 => lineOf3 "slt".toList (regText rd) (regText rs1) (regText rs2)
  | .sll rd rs1 rs2 => lineOf3 "sll".toList (regText rd) (regText rs1) (regText rs2)
  | .sra rd rs1 rs2 => lineOf3 "sra".toList (regText rd) (regText rs1) (regText rs2)
  | .addi rd rs1 imm => lineOf3 "addi".toList (regText rd) (regText rs1) (intText imm)
  | .andi rd rs1 imm => lineOf3 "andi".toList (regText rd) (regText rs1) (intText imm)
  | .ori rd rs1 imm => lineOf3 "ori".toList (regText rd) (regText rs1) (intText imm)
  | .xori rd rs1 imm => lineOf3 "xori".toList (regText rd) (regText rs1) (intText imm)
  | .slti rd rs1 imm => lineOf3 "slti".toList (regText rd) (regText rs1) (intText imm)
  | .lw rd off rs2 => lineOf2 "lw".toList (regText rd) (offsetText off rs2)
  | .lb rd off rs2 => lineOf2 "lb".toList (regText rd) (offsetText off rs2)
  | .sw rd off rs2 => lineOf2 "sw".toList (regText rd) (offsetText off rs2)
  | .sb rd off rs2 => lineOf2 "sb".toList (regText rd) (offsetText off rs2)
  | .lui rd imm => lineOf2 "lui".toList (regText rd) (intText imm)

/-! ## The decoded record (30_encoding.md R67, R68; log 11) -/

/-- A register index as the record's 5-bit field. -/
def regField (r : Reg) : BitVec 5 := .ofFin r

/-- An R_TYPE record. -/
def recordR (op : BitVec 4) (rd rs1 rs2 : Reg) : Record :=
  ⟨0, op, regField rd, regField rs1, regField rs2, 0⟩

/-- An I_TYPE record. -/
def recordI (op : BitVec 4) (rd rs1 : Reg) (imm : Int) : Record :=
  ⟨1, op, regField rd, regField rs1, 0, wrap32 imm⟩

/-- A MEM_TYPE record: the base register in `rs2`. -/
def recordMem (op : BitVec 4) (rd : Reg) (off : Int) (rs2 : Reg) : Record :=
  ⟨2, op, regField rd, 0, regField rs2, wrap32 off⟩

/-- A U_TYPE record. -/
def recordU (op : BitVec 4) (rd : Reg) (imm : Int) : Record :=
  ⟨3, op, regField rd, 0, 0, wrap32 imm⟩

/-- The record of an instruction, with the operation numbers of 30_encoding.md R68. -/
def Instr.record : Instr → Record
  | .add rd rs1 rs2 => recordR 0 rd rs1 rs2
  | .sub rd rs1 rs2 => recordR 1 rd rs1 rs2
  | .and rd rs1 rs2 => recordR 2 rd rs1 rs2
  | .or rd rs1 rs2 => recordR 3 rd rs1 rs2
  | .xor rd rs1 rs2 => recordR 4 rd rs1 rs2
  | .nor rd rs1 rs2 => recordR 5 rd rs1 rs2
  | .slt rd rs1 rs2 => recordR 6 rd rs1 rs2
  | .sll rd rs1 rs2 => recordR 7 rd rs1 rs2
  | .sra rd rs1 rs2 => recordR 8 rd rs1 rs2
  | .addi rd rs1 imm => recordI 0 rd rs1 imm
  | .andi rd rs1 imm => recordI 1 rd rs1 imm
  | .ori rd rs1 imm => recordI 2 rd rs1 imm
  | .xori rd rs1 imm => recordI 3 rd rs1 imm
  | .slti rd rs1 imm => recordI 4 rd rs1 imm
  | .lw rd off rs2 => recordMem 0 rd off rs2
  | .lb rd off rs2 => recordMem 1 rd off rs2
  | .sw rd off rs2 => recordMem 2 rd off rs2
  | .sb rd off rs2 => recordMem 3 rd off rs2
  | .lui rd imm => recordU 0 rd imm

/-- The operation a `(cat, op)` pair numbers (30_encoding.md R67, R68): UNKNOWN, and the pairs that
are never produced, give `unknown`. -/
def classOfCodes (cat : BitVec 3) (op : BitVec 4) : Class :=
  match cat.toNat, op.toNat with
  | 0, 0 => .rType .add
  | 0, 1 => .rType .sub
  | 0, 2 => .rType .and
  | 0, 3 => .rType .or
  | 0, 4 => .rType .xor
  | 0, 5 => .rType .nor
  | 0, 6 => .rType .slt
  | 0, 7 => .rType .sll
  | 0, 8 => .rType .sra
  | 1, 0 => .iType .addi
  | 1, 1 => .iType .andi
  | 1, 2 => .iType .ori
  | 1, 3 => .iType .xori
  | 1, 4 => .iType .slti
  | 2, 0 => .memType .lw
  | 2, 1 => .memType .lb
  | 2, 2 => .memType .sw
  | 2, 3 => .memType .sb
  | 3, 0 => .uType .lui
  | _, _ => .unknown

/-- The instruction a record stands for: none where the decoder never produces the record
(30_encoding.md R67, R68). -/
def Record.instr? (r : Record) : Option Instr :=
  match classOfCodes r.cat r.op with
  | .rType op => if r.imm = 0 then some (op.instr r.rd.toFin r.rs1.toFin r.rs2.toFin) else none
  | .iType op => if r.rs2 = 0 then some (op.instr r.rd.toFin r.rs1.toFin (s32 r.imm)) else none
  | .memType op => if r.rs1 = 0 then some (op.instr r.rd.toFin (s32 r.imm) r.rs2.toFin) else none
  | .uType op =>
    if r.rs1 = 0 ∧ r.rs2 = 0 then some (op.instr r.rd.toFin (s32 r.imm)) else none
  | .unknown => none

/-! ## A table word as a line (log 9) -/

/-- The line whose characters are the bytes of `w`, the first character in bits 7..0, `nbits / 8`
of them. -/
def lineOfWord (nbits w : Nat) : Line :=
  (List.range (nbits / 8)).map (fun k => Char.ofNat (w / 256 ^ k % 256))

/-- The instruction the decoder reads from the line of a table word; none where the line is skipped
or malformed. -/
def decodeTableWord (nbits w : Nat) : Option Instr :=
  match decode (lineOfWord nbits w) with
  | .instr i => some i
  | .skipped => none
  | .error _ => none

end Sys2Proof
end

