-- ==== Sys2Proof/Machine/State.lean ====
section
/-! DEFINITION. The machine's state as plain data, its reset, the outcome codes and the reasons a
step stops (10_state.md; 60_exceptions.md R101). -/

namespace Sys2Proof.Machine

/-- The outcomes a call of the block returns (60_exceptions.md R101); `OutcomeCode.num` gives the
numbers. -/
inductive OutcomeCode where
  /-- The instruction's writes are committed and `x0` is reset. -/
  | ok
  /-- UNKNOWN mnemonic; not an error. -/
  | skipped
  /-- The operand string is malformed (60_exceptions.md R103). -/
  | invalidInstruction
  /-- A token is not acceptable (60_exceptions.md R104). -/
  | invalidOperand
  /-- An accessed byte is outside the address range (60_exceptions.md R105). -/
  | addressOutOfRange
  /-- `init` only; no step returns it and no run of the model has it (60_exceptions.md R106, log 15). -/
  | allocationFailure
  deriving DecidableEq, Repr

/-- Why a step faults: the error outcomes of 60_exceptions.md R101. A faulted run stops (R124, log 7);
each of the three is safe: the block changes no state at that line (R107). -/
inductive Fault where
  /-- Raised by the decoder for a malformed operand string of a known mnemonic (R103). Safe. -/
  | invalidInstruction
  /-- Raised by the decoder for a token it does not accept (R104). Safe. -/
  | invalidOperand
  /-- Raised by `lw`, `lb`, `sw`, `sb` when an accessed byte is outside the range (R105). Safe. -/
  | addressOutOfRange
  deriving DecidableEq, Repr

/-- Why a step gives no meaning. No arm of `exec` refuses, so no step of this model ends so. -/
inductive Refusal where
  /-- An instruction that has no meaning in the model, by its mnemonic. Safe. -/
  | notModelled (mnemonic : String)
  deriving DecidableEq, Repr

/-- One written location of the store: its integer address (20_memory.md R31, log 4) and its byte. -/
abbrev Cell := Int × Byte

/-- The Sparse Byte Store as a finite map (10_state.md R19, R20; 20_memory.md R46): the written
locations, addresses strictly rising (`Memory.wf`). An unlisted location holds nothing and reads 0. -/
abbrev Memory := List Cell

/-- Everything the spec gives the machine, and two fields of the model's own. -/
structure State where
  /-- The Register File, `x0` to `x31` (10_state.md R8). `x0` is storage like the others (R12). -/
  regs : Vector Word 32
  /-- The Sparse Byte Store: contents and written set (10_state.md R19 to R21). -/
  mem : Memory
  /-- The store's bucket count (10_state.md R22). -/
  bucketCount : Nat
  /-- The model's own: the lines the caller has yet to hand to `step`, next first
  (70_reset_and_hazards.md R123, log 1). -/
  lines : List Line
  /-- The model's own: the code the last completed step returned (60_exceptions.md R101, log 6). -/
  outcome : Option OutcomeCode
  deriving DecidableEq, Repr

/-- The state after `init` (10_state.md R28, R29) with 32 zeros as the caller's initial register
values (DESIGN CHOICE, log 3), no line handed yet (log 1) and no step made yet (log 6). -/
def State.reset : State where
  regs := Vector.replicate 32 0
  mem := []
  bucketCount := Config.bucketCount
  lines := []
  outcome := none

end Sys2Proof.Machine
end

