-- ==== Sys2Proof/Machine/Ops.lean ====
section
/-! DEFINITION. The shared operations over registers and the store, and how a step ends: `return OK`,
skipped, or an error (10_state.md R12 to R21; 20_memory.md R36, R37; 60_exceptions.md R101, R107). -/

namespace Sys2Proof.Machine

/-- What a step of this machine answers. -/
abbrev StepResult := Host.Outcome State Fault Refusal

/-! ## Registers -/

/-- `x[i]`: the word register `i` holds, `x0` included (10_state.md R8, R12). -/
def State.reg (s : State) (i : Reg) : Word := s.regs[i]

/-- `x[i] <- v` (10_state.md R8). The write-back inhibit is not here: it comes at the end of the step
(R12, R13). -/
def State.setReg (s : State) (i : Reg) (v : Word) : State :=
  { s with regs := s.regs.set i v }

/-! ## The other fields -/

/-- The state with another store. -/
def State.withMem (s : State) (m : Memory) : State := { s with mem := m }

/-- The state with other lines queued (70_reset_and_hazards.md R123, log 1). -/
def State.withLines (s : State) (ls : List Line) : State := { s with lines := ls }

/-- The state with the code its last step returned (60_exceptions.md R101, log 6). -/
def State.returning (s : State) (c : OutcomeCode) : State := { s with outcome := some c }

/-! ## The Sparse Byte Store -/

/-- What a location holds: its byte where it is in the written set, else nothing (10_state.md R19). -/
def Memory.find? : Memory → Int → Option Byte
  | [], _ => none
  | c :: m, a => if c.1 = a then some c.2 else Memory.find? m a

/-- `get(a)`: the stored byte, or 0 if `a` was never written (10_state.md R19). -/
def Memory.get (m : Memory) (a : Int) : Byte := (m.find? a).getD 0

/-- `put(a, v)`: overwrites the byte of a written location, or adds the location to the written set,
also for the byte 0 (10_state.md R20, R21). Keeps the addresses rising. -/
def Memory.put : Memory → Int → Byte → Memory
  | [], a, v => [(a, v)]
  | c :: m, a, v =>
    if a < c.1 then (a, v) :: c :: m
    else if a = c.1 then (a, v) :: m
    else c :: Memory.put m a v

/-- `size()`: the number of written locations (10_state.md R20). -/
def Memory.size (m : Memory) : Nat := m.length

/-- The canonical form: addresses strictly rising, so no location is listed twice and equal stores
are equal data (log 4). -/
abbrev Memory.wf (m : Memory) : Prop := m.Pairwise (fun c d => c.1 < d.1)

/-- `MemRead(a, 4)`: the little-endian concatenation of four bytes (20_memory.md R36, R38). -/
def Memory.readWord (m : Memory) (a : Int) : Word :=
  m.get (a + 3) ++ m.get (a + 2) ++ m.get (a + 1) ++ m.get a

/-- `MemRead(a, 1)` (20_memory.md R36). -/
def Memory.readByte (m : Memory) (a : Int) : Byte := m.get a

/-- `MemWrite(a, 4, v)`: `put(a + i, v[8i+7:8i])` for `i` in 0 to 3 (20_memory.md R37, R38). -/
def Memory.writeWord (m : Memory) (a : Int) (v : Word) : Memory :=
  (((m.put a (v.extractLsb' 0 8)).put (a + 1) (v.extractLsb' 8 8)).put (a + 2)
    (v.extractLsb' 16 8)).put (a + 3) (v.extractLsb' 24 8)

/-- `MemWrite(a, 1, v)` (20_memory.md R37). -/
def Memory.writeByte (m : Memory) (a : Int) (v : Byte) : Memory := m.put a v

/-! ## How a step ends -/

/-- `x[0] <- 0; return OK`: the write-back inhibit after the instruction's own writes, and the outcome
OK (10_state.md R13; 60_exceptions.md R101). -/
def returnOk (s : State) : StepResult :=
  .next ((s.setReg 0 0).returning .ok)

/-- The end of a step whose mnemonic is UNKNOWN: nothing changes, `x0` is not reset, the outcome is
SKIPPED (30_encoding.md R56; 60_exceptions.md R102). -/
def skip (s : State) : StepResult :=
  .next (s.returning .skipped)

/-- `raise <Outcome>`: ends the step with an error and no change of state (60_exceptions.md R107). The
block has no trap entry: nothing is saved and control goes nowhere (R111). -/
def raise (f : Fault) : StepResult := .fault f

/-- The fault a decoder error is (60_exceptions.md R103, R104). -/
def Fault.ofDecodeError : DecodeError → Fault
  | .invalidInstruction => .invalidInstruction
  | .invalidOperand => .invalidOperand

/-- The outcome code of a fault (60_exceptions.md R101). -/
def Fault.code : Fault → OutcomeCode
  | .invalidInstruction => .invalidInstruction
  | .invalidOperand => .invalidOperand
  | .addressOutOfRange => .addressOutOfRange

/-- The numeric codes (60_exceptions.md R101). -/
def OutcomeCode.num : OutcomeCode → Nat
  | .ok => 0
  | .skipped => 1
  | .invalidInstruction => 2
  | .invalidOperand => 3
  | .addressOutOfRange => 4
  | .allocationFailure => 5

end Sys2Proof.Machine
end

