-- ==== Sys2Proof/Machine/Operands.lean ====
section
/-! DEFINITION. The operand forms: the immediate word, the shift amount, base plus offset with its
range check, and the sign extension of a loaded byte (30_encoding.md R67; 20_memory.md R34, R35). -/

namespace Sys2Proof.Machine

/-- The immediate word `i = wrap32(imm)` of an I_TYPE or U_TYPE instruction (30_encoding.md R67,
R69). -/
def immWord (imm : Int) : Word := wrap32 imm

/-- The shift amount `u32(b & 0x1f)`, 0 to 31 (40_r_type.md R85, R86). -/
def shiftAmount (b : Word) : Nat := u32 (b &&& Config.shamtMask)

/-- The effective address, exact, with no wrap-around (20_memory.md R34). -/
def effAddr (base : Reg) (off : Int) (s : State) : Int := s32 (s.reg base) + off

/-- The range check on an access of `n` bytes at `ea` passes (20_memory.md R35, log 8). -/
abbrev AccessInRange (ea : Int) (n : Nat) : Prop :=
  Config.addrMin ≤ ea ∧ ea + n - 1 ≤ Config.addrMax

/-- `sext_32` of a byte (00_scope.md section 4). -/
def sext32 (b : Byte) : Word := b.signExtend 32

end Sys2Proof.Machine
end

