-- ==== Sys2Proof/Machine/Flags.lean ====
section
/-! DEFINITION. The block has no flags, condition codes or predicates (10_state.md R17). A comparison
is delivered as a register value, 1 or 0; it is the one computation kept here. -/

namespace Sys2Proof.Machine

/-- 1 if `s32(a) < s32(b)`, else 0 (40_r_type.md R84; 41_i_type.md R92). -/
def lessThanSigned (a b : Word) : Word := if s32 a < s32 b then 1 else 0

end Sys2Proof.Machine
end

