-- ==== Sys2Proof/Machine/RType.lean ====
section
/-! DEFINITION. The ALU operations and the nine R_TYPE instructions (40_r_type.md R77 to R86). -/

namespace Sys2Proof.Machine

/-- Wrapping addition: `wrap32(s32(a) + s32(b))` (40_r_type.md R78). -/
def aluAdd (a b : Word) : Word := a + b

/-- Wrapping subtraction: `wrap32(s32(a) - s32(b))` (40_r_type.md R79). -/
def aluSub (a b : Word) : Word := a - b

/-- Bitwise AND (40_r_type.md R80). -/
def aluAnd (a b : Word) : Word := a &&& b

/-- Bitwise OR (40_r_type.md R81). -/
def aluOr (a b : Word) : Word := a ||| b

/-- Bitwise exclusive OR (40_r_type.md R82). -/
def aluXor (a b : Word) : Word := a ^^^ b

/-- Bitwise NOT-OR (40_r_type.md R83). -/
def aluNor (a b : Word) : Word := ~~~(a ||| b)

/-- Shift left logical by the low 5 bits of `b` (40_r_type.md R85). -/
def aluSll (a b : Word) : Word := a <<< shiftAmount b

/-- Shift right arithmetic by the low 5 bits of `b` (40_r_type.md R86). -/
def aluSra (a b : Word) : Word := a.sshiftRight (shiftAmount b)

/-- The common R_TYPE step: both sources are read, `f` of them is written to `rd`, the step returns OK
(40_r_type.md R77). -/
def execR (f : Word → Word → Word) (rd rs1 rs2 : Reg) (s : State) : StepResult :=
  returnOk (s.setReg rd (f (s.reg rs1) (s.reg rs2)))

/-- `add rd,rs1,rs2` (40_r_type.md R78). -/
def execAdd (rd rs1 rs2 : Reg) (s : State) : StepResult := execR aluAdd rd rs1 rs2 s

/-- `sub rd,rs1,rs2` (40_r_type.md R79). -/
def execSub (rd rs1 rs2 : Reg) (s : State) : StepResult := execR aluSub rd rs1 rs2 s

/-- `and rd,rs1,rs2` (40_r_type.md R80). -/
def execAnd (rd rs1 rs2 : Reg) (s : State) : StepResult := execR aluAnd rd rs1 rs2 s

/-- `or rd,rs1,rs2` (40_r_type.md R81). -/
def execOr (rd rs1 rs2 : Reg) (s : State) : StepResult := execR aluOr rd rs1 rs2 s

/-- `xor rd,rs1,rs2` (40_r_type.md R82). -/
def execXor (rd rs1 rs2 : Reg) (s : State) : StepResult := execR aluXor rd rs1 rs2 s

/-- `nor rd,rs1,rs2` (40_r_type.md R83). -/
def execNor (rd rs1 rs2 : Reg) (s : State) : StepResult := execR aluNor rd rs1 rs2 s

/-- `slt rd,rs1,rs2` (40_r_type.md R84). -/
def execSlt (rd rs1 rs2 : Reg) (s : State) : StepResult := execR lessThanSigned rd rs1 rs2 s

/-- `sll rd,rs1,rs2` (40_r_type.md R85). -/
def execSll (rd rs1 rs2 : Reg) (s : State) : StepResult := execR aluSll rd rs1 rs2 s

/-- `sra rd,rs1,rs2` (40_r_type.md R86). -/
def execSra (rd rs1 rs2 : Reg) (s : State) : StepResult := execR aluSra rd rs1 rs2 s

end Sys2Proof.Machine
end

