-- ==== Sys2Proof/Machine/IType.lean ====
section
/-! DEFINITION. The five I_TYPE instructions (41_i_type.md R87 to R92). -/

namespace Sys2Proof.Machine

/-- The common I_TYPE step: `rs1` is read, `f` of it and the whole immediate word is written to `rd`,
the step returns OK (41_i_type.md R87). -/
def execI (f : Word → Word → Word) (rd rs1 : Reg) (imm : Int) (s : State) : StepResult :=
  returnOk (s.setReg rd (f (s.reg rs1) (immWord imm)))

/-- `addi rd,rs1,imm` (41_i_type.md R88). -/
def execAddi (rd rs1 : Reg) (imm : Int) (s : State) : StepResult := execI aluAdd rd rs1 imm s

/-- `andi rd,rs1,imm` (41_i_type.md R89). -/
def execAndi (rd rs1 : Reg) (imm : Int) (s : State) : StepResult := execI aluAnd rd rs1 imm s

/-- `ori rd,rs1,imm` (41_i_type.md R90). -/
def execOri (rd rs1 : Reg) (imm : Int) (s : State) : StepResult := execI aluOr rd rs1 imm s

/-- `xori rd,rs1,imm` (41_i_type.md R91). -/
def execXori (rd rs1 : Reg) (imm : Int) (s : State) : StepResult := execI aluXor rd rs1 imm s

/-- `slti rd,rs1,imm` (41_i_type.md R92). -/
def execSlti (rd rs1 : Reg) (imm : Int) (s : State) : StepResult :=
  execI lessThanSigned rd rs1 imm s

end Sys2Proof.Machine
end

