-- ==== Sys2Proof/Machine/MemType.lean ====
section
/-! DEFINITION. The four MEM_TYPE instructions (42_mem_type.md R93 to R97). The range check comes
before any read or write (20_memory.md R35); no alignment is required (R40, log 14). -/

namespace Sys2Proof.Machine

/-- The common load: the address from the old base, the range check, the value of the read to `rd`
(42_mem_type.md R93; 10_state.md R15). -/
def execLoad (n : Nat) (read : Memory → Int → Word) (rd : Reg) (off : Int) (rs2 : Reg)
    (s : State) : StepResult :=
  if AccessInRange (effAddr rs2 off s) n then
    returnOk (s.setReg rd (read s.mem (effAddr rs2 off s)))
  else raise .addressOutOfRange

/-- The common store: the range check, then the write of the store (42_mem_type.md R93). -/
def execStore (n : Nat) (write : Memory → Int → Memory) (off : Int) (rs2 : Reg) (s : State) :
    StepResult :=
  if AccessInRange (effAddr rs2 off s) n then
    returnOk (s.withMem (write s.mem (effAddr rs2 off s)))
  else raise .addressOutOfRange

/-- `lw rd,off(rs2)` (42_mem_type.md R94). -/
def execLw (rd : Reg) (off : Int) (rs2 : Reg) (s : State) : StepResult :=
  execLoad 4 Memory.readWord rd off rs2 s

/-- `lb rd,off(rs2)`: the byte is sign-extended (42_mem_type.md R95). -/
def execLb (rd : Reg) (off : Int) (rs2 : Reg) (s : State) : StepResult :=
  execLoad 1 (fun m a => sext32 (m.readByte a)) rd off rs2 s

/-- `sw rd,off(rs2)`: stores the first operand register (42_mem_type.md R96). -/
def execSw (rd : Reg) (off : Int) (rs2 : Reg) (s : State) : StepResult :=
  execStore 4 (fun m a => m.writeWord a (s.reg rd)) off rs2 s

/-- `sb r,off(rs2)`: stores the low byte of the BASE register; the first operand register is not read
(42_mem_type.md R97, log 16). -/
def execSb (_r : Reg) (off : Int) (rs2 : Reg) (s : State) : StepResult :=
  execStore 1 (fun m a => m.writeByte a ((s.reg rs2).extractLsb' 0 8)) off rs2 s

end Sys2Proof.Machine
end

