-- ==== Sys2Proof/Machine/UType.lean ====
section
/-! DEFINITION. The one U_TYPE instruction (43_u_type.md R99). -/

namespace Sys2Proof.Machine

/-- `lui rd,imm`: the immediate word shifted left by 12; what leaves bit 31 is lost (43_u_type.md
R99). -/
def execLui (rd : Reg) (imm : Int) (s : State) : StepResult :=
  returnOk (s.setReg rd (immWord imm <<< Config.luiShift))

end Sys2Proof.Machine
end

