-- ==== Sys2Proof/Machine/Dispatch.lean ====
section
/-! DEFINITION. Operation dispatch: one arm per instruction, each a direct call of its meaning
(30_encoding.md R76). -/

namespace Sys2Proof.Machine

def exec (i : Instr) (s : State) : Host.Outcome State Fault Refusal :=
  match i with
  | .add rd rs1 rs2 => Sys2Proof.Machine.execAdd rd rs1 rs2 s
  | .sub rd rs1 rs2 => Sys2Proof.Machine.execSub rd rs1 rs2 s
  | .and rd rs1 rs2 => Sys2Proof.Machine.execAnd rd rs1 rs2 s
  | .or rd rs1 rs2 => Sys2Proof.Machine.execOr rd rs1 rs2 s
  | .xor rd rs1 rs2 => Sys2Proof.Machine.execXor rd rs1 rs2 s
  | .nor rd rs1 rs2 => Sys2Proof.Machine.execNor rd rs1 rs2 s
  | .slt rd rs1 rs2 => Sys2Proof.Machine.execSlt rd rs1 rs2 s
  | .sll rd rs1 rs2 => Sys2Proof.Machine.execSll rd rs1 rs2 s
  | .sra rd rs1 rs2 => Sys2Proof.Machine.execSra rd rs1 rs2 s
  | .addi rd rs1 imm => Sys2Proof.Machine.execAddi rd rs1 imm s
  | .andi rd rs1 imm => Sys2Proof.Machine.execAndi rd rs1 imm s
  | .ori rd rs1 imm => Sys2Proof.Machine.execOri rd rs1 imm s
  | .xori rd rs1 imm => Sys2Proof.Machine.execXori rd rs1 imm s
  | .slti rd rs1 imm => Sys2Proof.Machine.execSlti rd rs1 imm s
  | .lw rd off rs2 => Sys2Proof.Machine.execLw rd off rs2 s
  | .lb rd off rs2 => Sys2Proof.Machine.execLb rd off rs2 s
  | .sw rd off rs2 => Sys2Proof.Machine.execSw rd off rs2 s
  | .sb rd off rs2 => Sys2Proof.Machine.execSb rd off rs2 s
  | .lui rd imm => Sys2Proof.Machine.execLui rd imm s

end Sys2Proof.Machine
end

