-- ==== Sys2Proof/Machine/Engine.lean ====
section
/-! DEFINITION. One line through the block: decode, execute, return an outcome (10_state.md R25), and
how the queued lines reach it (70_reset_and_hazards.md R123, R124). -/

namespace Sys2Proof.Machine

/-- One step on a line: the decoder reads it, the engine executes it (10_state.md R25; 30_encoding.md
R66, R76). -/
def execLine (l : Line) (s : State) : StepResult :=
  match decode l with
  | .instr i => exec i s
  | .skipped => skip s
  | .error e => raise (Fault.ofDecodeError e)

/-- The code a finished step returns to its caller (60_exceptions.md R101); none for a refusal, which
no line of this model gets. -/
def returnedCode : StepResult → Option OutcomeCode
  | .next t => t.outcome
  | .fault f => some f.code
  | .refused _ => none

/-- The block's state after a step from `s`: an error changes nothing (60_exceptions.md R107). -/
def stateAfter (s : State) : StepResult → State
  | .next t => t
  | .fault _ => s
  | .refused _ => s

/-- `step(instruction_text)` as the caller sees it (10_state.md R25): the returned code and the state
the block is left in. It accepts the next line after an error too (60_exceptions.md R107). -/
def stepText (l : Line) (s : State) : Option OutcomeCode × State :=
  (returnedCode (execLine l s), stateAfter s (execLine l s))

/-- One step of a run: the next queued line is taken and executed, and an error faults the run
(70_reset_and_hazards.md R123, R124, log 7). With no line queued the block is idle and keeps its state
(60_exceptions.md R120, log 2). -/
def runStep (s : State) : StepResult :=
  match s.lines with
  | [] => .next s
  | l :: rest => execLine l (s.withLines rest)

/-- Queues a line before those already queued, so that the next step takes it (log 1). -/
def State.withNextLine (s : State) (l : Line) : State :=
  s.withLines (l :: s.lines)

end Sys2Proof.Machine
end

