-- ==== Sys2Proof/Machine/Step.lean ====
section
/-! DEFINITION. The machine's step, and the placing of a table word where it is taken next. -/

namespace Sys2Proof.Machine

/-- One step of the machine (70_reset_and_hazards.md R123). -/
def step (s : State) : Host.Outcome State Fault Refusal := runStep s

/-- `s` with the line of a table word queued next (logs 1 and 9). -/
def State.withFetchWord (s : State) (nbits w : Nat) : State := s.withNextLine (lineOfWord nbits w)

end Sys2Proof.Machine
end

