-- ==== Sys2Proof/Machine/Buckets.lean ====
section
/-! DEFINITION. The storage organisation no program can observe (20_memory.md R46): chains chosen by
`abs(address) mod bucket_count`. The machine keeps the store as a finite map, which R46 allows (log 5);
this is the bucketed store itself, to be compared with the map. -/

namespace Sys2Proof.Machine

/-- The chains of the store, chain `k` at position `k`. -/
abbrev Buckets := List (List Cell)

/-- `bucket_index = abs(a) mod bucket_count` (20_memory.md R46). -/
def bucketIndex (bucketCount : Nat) (a : Int) : Nat := a.natAbs % bucketCount

/-- The store at `init`: every chain empty (10_state.md R29). -/
def Buckets.empty (bucketCount : Nat) : Buckets := List.replicate bucketCount []

/-- A `put` in one chain: the entry is overwritten where it is, or a new one is prepended
(20_memory.md R46; 10_state.md R21). -/
def chainPut (chain : List Cell) (a : Int) (v : Byte) : List Cell :=
  if chain.any (fun c => c.1 == a) then
    chain.map (fun c => if c.1 = a then (a, v) else c)
  else (a, v) :: chain

/-- The chain an address is kept in. -/
def Buckets.chain (b : Buckets) (a : Int) : List Cell := b.getD (bucketIndex b.length a) []

/-- `get`: linear along the chain, full address equality, 0 where it is not found (20_memory.md R31,
R46). -/
def Buckets.get (b : Buckets) (a : Int) : Byte := Memory.get (b.chain a) a

/-- `put` (20_memory.md R46). -/
def Buckets.put (b : Buckets) (a : Int) (v : Byte) : Buckets :=
  b.set (bucketIndex b.length a) (chainPut (b.chain a) a v)

/-- `size`: total entries across all buckets (10_state.md R20). -/
def Buckets.size (b : Buckets) : Nat := (b.map List.length).sum

/-- The chain number `k` of a machine's store under its bucket count: the written locations kept
there, with no claim about their order (93_implementation_defined.md U7). -/
def State.chainOf (s : State) (k : Nat) : List Cell :=
  s.mem.filter (fun c => bucketIndex s.bucketCount c.1 == k)

end Sys2Proof.Machine
end

