-- ==== Sys2Proof/Machine/Interface.lean ====
section
/-! DEFINITION. What the surrounding software does beside `step`: `init` and the read-back calls
(10_state.md R24, R26 to R29). -/

namespace Sys2Proof.Machine

/-- `init(initial_register_values)`: every register, `x0` included, holds the caller's value; the
store is empty (10_state.md R28, R29). A second `init` is a fresh state (log 19). -/
def State.init (values : Vector Int 32) : State where
  regs := values.map wrap32
  mem := []
  bucketCount := 256
  lines := []
  outcome := none

/-- `read_reg(i)`: the signed value for an index 0 to 31, else INVALID_OPERAND and no value
(10_state.md R26). -/
def readReg (s : State) (i : Int) : Except OutcomeCode Int :=
  if h : 0 ≤ i ∧ i < 32 then .ok (s32 (s.reg ⟨i.toNat, by omega⟩)) else .error .invalidOperand

/-- `read_mem(a)`: `get(a)` as an integer 0 to 255, for any integer address (10_state.md R27). -/
def readMem (s : State) (a : Int) : Nat := (s.mem.get a).toNat

/-- `size()`: the entry count (10_state.md R27). -/
def size (s : State) : Nat := s.mem.size

end Sys2Proof.Machine
end

