-- ==== Sys2Proof/Safety.lean ====
section
/-! DEFINITION. The terms claims use: a safe run, the launch premise, the machine's invariant, what an
instruction reads and writes, and the two shapes of effect. -/

namespace Sys2Proof.Machine

/-- `k` steps from `s` with no error outcome (70_reset_and_hazards.md R123, R124). -/
def SafeRun (k : Nat) (s : State) : Prop := ∃ t, Host.Core.run Sys2Proof.core k s = .next t

/-- The launch premise: `x0` reads 0 from the first step on (70_reset_and_hazards.md R122, log 17). -/
def LaunchPremise (s : State) : Prop := s.reg 0 = 0

/-- Every location of the written set lies in [ADDR_MIN, ADDR_MAX] (20_memory.md R32). -/
abbrev Memory.inRange (m : Memory) : Prop :=
  ∀ c ∈ m, Config.addrMin ≤ c.1 ∧ c.1 ≤ Config.addrMax

/-- What holds of the machine at every step: the store is in its canonical form and inside the address
range, the bucket count is the one `init` set (10_state.md R22), and `x0` is 0 whenever the last
completed step returned OK (10_state.md R13). -/
abbrev State.Inv (s : State) : Prop :=
  s.mem.wf ∧ s.mem.inRange ∧ s.bucketCount = 256 ∧ (s.outcome = some .ok → s.reg 0 = 0)

/-- A string of characters that can stand as one token of a whitespace-free operand string: no comma and
none of the whitespace characters U+0020 and U+0009 to U+000D (30_encoding.md R57, R58). -/
abbrev OperandToken (t : Line) : Prop :=
  ∀ c ∈ t, c ≠ ',' ∧ c ∉ [Char.ofNat 0x20, Char.ofNat 0x09, Char.ofNat 0x0A, Char.ofNat 0x0B,
    Char.ofNat 0x0C, Char.ofNat 0x0D]

/-- The registers an instruction reads (10_state.md R10): `sw` reads its first register, `sb` does
not. -/
def reads : Instr → List Reg
  | .add _ rs1 rs2 => [rs1, rs2]
  | .sub _ rs1 rs2 => [rs1, rs2]
  | .and _ rs1 rs2 => [rs1, rs2]
  | .or _ rs1 rs2 => [rs1, rs2]
  | .xor _ rs1 rs2 => [rs1, rs2]
  | .nor _ rs1 rs2 => [rs1, rs2]
  | .slt _ rs1 rs2 => [rs1, rs2]
  | .sll _ rs1 rs2 => [rs1, rs2]
  | .sra _ rs1 rs2 => [rs1, rs2]
  | .addi _ rs1 _ => [rs1]
  | .andi _ rs1 _ => [rs1]
  | .ori _ rs1 _ => [rs1]
  | .xori _ rs1 _ => [rs1]
  | .slti _ rs1 _ => [rs1]
  | .lw _ _ rs2 => [rs2]
  | .lb _ _ rs2 => [rs2]
  | .sw rd _ rs2 => [rd, rs2]
  | .sb _ _ rs2 => [rs2]
  | .lui _ _ => []

/-- The registers an instruction writes (10_state.md R10), the reset of `x0` apart. -/
def writes : Instr → List Reg
  | .add rd _ _ => [rd]
  | .sub rd _ _ => [rd]
  | .and rd _ _ => [rd]
  | .or rd _ _ => [rd]
  | .xor rd _ _ => [rd]
  | .nor rd _ _ => [rd]
  | .slt rd _ _ => [rd]
  | .sll rd _ _ => [rd]
  | .sra rd _ _ => [rd]
  | .addi rd _ _ => [rd]
  | .andi rd _ _ => [rd]
  | .ori rd _ _ => [rd]
  | .xori rd _ _ => [rd]
  | .slti rd _ _ => [rd]
  | .lw rd _ _ => [rd]
  | .lb rd _ _ => [rd]
  | .sw _ _ _ => []
  | .sb _ _ _ => []
  | .lui rd _ => [rd]

/-- From `s` to `t` a step wrote `v` to register `rd`, discarded where `rd` is `x0`, and did nothing
else but reset `x0` and return OK. -/
structure WritesRegister (s t : State) (rd : Reg) (v : Word) : Prop where
  /-- The destination holds the result, unless it is `x0`. -/
  result : rd ≠ 0 → t.reg rd = v
  /-- `x0` is reset (10_state.md R13). -/
  zero : t.reg 0 = 0
  /-- Every other register keeps its value. -/
  others : ∀ r, r ≠ rd → r ≠ 0 → t.reg r = s.reg r
  /-- Every location of the store holds what it held: no byte changed and none joined the written
  set. -/
  memory : ∀ a, t.mem.find? a = s.mem.find? a
  /-- The entry count is unchanged. -/
  entries : t.mem.size = s.mem.size
  /-- The bucket count is unchanged. -/
  buckets : t.bucketCount = s.bucketCount
  /-- The queued lines are unchanged: no instruction changes what comes next (10_state.md R16). -/
  lines : t.lines = s.lines
  /-- The step returned OK. -/
  returned : t.outcome = some .ok

/-- From `s` to `t` a step stored `bytes` at the locations from `ea` on and did nothing else but reset
`x0` and return OK. -/
structure StoresBytes (s t : State) (ea : Int) (bytes : List Byte) : Prop where
  /-- Location `ea + k` is written and holds byte `k`. -/
  stored : ∀ k (h : k < bytes.length), t.mem.find? (ea + k) = some bytes[k]
  /-- Every other location holds what it held, or still nothing. -/
  elsewhere : ∀ a, a < ea ∨ ea + bytes.length ≤ a → t.mem.find? a = s.mem.find? a
  /-- `x0` is reset, for stores as for loads (42_mem_type.md R93). -/
  zero : t.reg 0 = 0
  /-- Every register but `x0` keeps its value. -/
  registers : ∀ r, r ≠ 0 → t.reg r = s.reg r
  /-- The bucket count is unchanged. -/
  buckets : t.bucketCount = s.bucketCount
  /-- The queued lines are unchanged. -/
  lines : t.lines = s.lines
  /-- The step returned OK. -/
  returned : t.outcome = some .ok

end Sys2Proof.Machine
end

