-- ==== Sys2Proof/Certificates/Slice0/Obligations.lean ====
section
/-! DEFINITION. The statements about the code_samples core, in the order of OBLIGATIONS.json. Each
docstring names the rule of spec/ it formalises. -/

open Sys2Proof Sys2Proof.Machine

/-! ## R_TYPE results, with frame, completion and decoded codes -/

/-- 40_r_type.md R78. -/
def Obligations.AddWritesWrappedSum : Prop :=
  ∀ (rd rs1 rs2 : Reg) (s : State),
    (∃ t, exec (.add rd rs1 rs2) s = .next t ∧
      WritesRegister s t rd (wrap32 (s32 (s.reg rs1) + s32 (s.reg rs2)))) ∧
    (Instr.add rd rs1 rs2).record.cat = 0 ∧ (Instr.add rd rs1 rs2).record.op = 0

/-- 40_r_type.md R79. -/
def Obligations.SubWritesWrappedDifference : Prop :=
  ∀ (rd rs1 rs2 : Reg) (s : State),
    (∃ t, exec (.sub rd rs1 rs2) s = .next t ∧
      WritesRegister s t rd (wrap32 (s32 (s.reg rs1) - s32 (s.reg rs2)))) ∧
    (Instr.sub rd rs1 rs2).record.cat = 0 ∧ (Instr.sub rd rs1 rs2).record.op = 1

/-- 40_r_type.md R80, bit by bit. -/
def Obligations.AndWritesBitwiseAnd : Prop :=
  ∀ (rd rs1 rs2 : Reg) (s : State),
    (∃ t v, exec (.and rd rs1 rs2) s = .next t ∧ WritesRegister s t rd v ∧
      ∀ k : Fin 32, v[k] = ((s.reg rs1)[k] && (s.reg rs2)[k])) ∧
    (Instr.and rd rs1 rs2).record.cat = 0 ∧ (Instr.and rd rs1 rs2).record.op = 2

/-- 40_r_type.md R81, bit by bit. -/
def Obligations.OrWritesBitwiseOr : Prop :=
  ∀ (rd rs1 rs2 : Reg) (s : State),
    (∃ t v, exec (.or rd rs1 rs2) s = .next t ∧ WritesRegister s t rd v ∧
      ∀ k : Fin 32, v[k] = ((s.reg rs1)[k] || (s.reg rs2)[k])) ∧
    (Instr.or rd rs1 rs2).record.cat = 0 ∧ (Instr.or rd rs1 rs2).record.op = 3

/-- 40_r_type.md R82, bit by bit. -/
def Obligations.XorWritesBitwiseXor : Prop :=
  ∀ (rd rs1 rs2 : Reg) (s : State),
    (∃ t v, exec (.xor rd rs1 rs2) s = .next t ∧ WritesRegister s t rd v ∧
      ∀ k : Fin 32, v[k] = ((s.reg rs1)[k] != (s.reg rs2)[k])) ∧
    (Instr.xor rd rs1 rs2).record.cat = 0 ∧ (Instr.xor rd rs1 rs2).record.op = 4

/-- 40_r_type.md R83, bit by bit. -/
def Obligations.NorWritesBitwiseNor : Prop :=
  ∀ (rd rs1 rs2 : Reg) (s : State),
    (∃ t v, exec (.nor rd rs1 rs2) s = .next t ∧ WritesRegister s t rd v ∧
      ∀ k : Fin 32, v[k] = !((s.reg rs1)[k] || (s.reg rs2)[k])) ∧
    (Instr.nor rd rs1 rs2).record.cat = 0 ∧ (Instr.nor rd rs1 rs2).record.op = 5

/-- 40_r_type.md R84. -/
def Obligations.SltWritesSignedComparison : Prop :=
  ∀ (rd rs1 rs2 : Reg) (s : State),
    (∃ t v, exec (.slt rd rs1 rs2) s = .next t ∧ WritesRegister s t rd v ∧
      (s32 (s.reg rs1) < s32 (s.reg rs2) → s32 v = 1) ∧
      (s32 (s.reg rs2) ≤ s32 (s.reg rs1) → s32 v = 0)) ∧
    (Instr.slt rd rs1 rs2).record.cat = 0 ∧ (Instr.slt rd rs1 rs2).record.op = 6

/-- 40_r_type.md R85: the amount is the low 5 bits of the second source. -/
def Obligations.SllWritesShiftByLowFiveBits : Prop :=
  ∀ (rd rs1 rs2 : Reg) (s : State),
    (∃ t, exec (.sll rd rs1 rs2) s = .next t ∧
      WritesRegister s t rd (wrap32 (u32 (s.reg rs1) * 2 ^ (u32 (s.reg rs2) % 32)))) ∧
    (Instr.sll rd rs1 rs2).record.cat = 0 ∧ (Instr.sll rd rs1 rs2).record.op = 7

/-- 40_r_type.md R86: the quotient rounds toward minus infinity. -/
def Obligations.SraWritesFloorOfQuotient : Prop :=
  ∀ (rd rs1 rs2 : Reg) (s : State),
    (∃ t, exec (.sra rd rs1 rs2) s = .next t ∧
      WritesRegister s t rd
        (wrap32 (Int.fdiv (s32 (s.reg rs1)) (2 ^ (u32 (s.reg rs2) % 32))))) ∧
    (Instr.sra rd rs1 rs2).record.cat = 0 ∧ (Instr.sra rd rs1 rs2).record.op = 8

/-! ## I_TYPE and U_TYPE results -/

/-- 41_i_type.md R88. -/
def Obligations.AddiWritesWrappedSum : Prop :=
  ∀ (rd rs1 : Reg) (imm : Int) (s : State),
    (∃ t, exec (.addi rd rs1 imm) s = .next t ∧
      WritesRegister s t rd (wrap32 (s32 (s.reg rs1) + imm))) ∧
    (Instr.addi rd rs1 imm).record.cat = 1 ∧ (Instr.addi rd rs1 imm).record.op = 0

/-- 41_i_type.md R89: with all 32 bits of the immediate word. -/
def Obligations.AndiCombinesAllImmediateBits : Prop :=
  ∀ (rd rs1 : Reg) (imm : Int) (s : State),
    (∃ t v, exec (.andi rd rs1 imm) s = .next t ∧ WritesRegister s t rd v ∧
      ∀ k : Fin 32, v[k] = ((s.reg rs1)[k] && (wrap32 imm)[k])) ∧
    (Instr.andi rd rs1 imm).record.cat = 1 ∧ (Instr.andi rd rs1 imm).record.op = 1

/-- 41_i_type.md R90. -/
def Obligations.OriCombinesAllImmediateBits : Prop :=
  ∀ (rd rs1 : Reg) (imm : Int) (s : State),
    (∃ t v, exec (.ori rd rs1 imm) s = .next t ∧ WritesRegister s t rd v ∧
      ∀ k : Fin 32, v[k] = ((s.reg rs1)[k] || (wrap32 imm)[k])) ∧
    (Instr.ori rd rs1 imm).record.cat = 1 ∧ (Instr.ori rd rs1 imm).record.op = 2

/-- 41_i_type.md R91. -/
def Obligations.XoriCombinesAllImmediateBits : Prop :=
  ∀ (rd rs1 : Reg) (imm : Int) (s : State),
    (∃ t v, exec (.xori rd rs1 imm) s = .next t ∧ WritesRegister s t rd v ∧
      ∀ k : Fin 32, v[k] = ((s.reg rs1)[k] != (wrap32 imm)[k])) ∧
    (Instr.xori rd rs1 imm).record.cat = 1 ∧ (Instr.xori rd rs1 imm).record.op = 3

/-- 41_i_type.md R92, for every immediate a line can hold. -/
def Obligations.SltiWritesSignedComparison : Prop :=
  ∀ (rd rs1 : Reg) (imm : Int) (s : State), (Instr.slti rd rs1 imm).wf = true →
    (∃ t v, exec (.slti rd rs1 imm) s = .next t ∧ WritesRegister s t rd v ∧
      (s32 (s.reg rs1) < imm → s32 v = 1) ∧ (imm ≤ s32 (s.reg rs1) → s32 v = 0)) ∧
    (Instr.slti rd rs1 imm).record.cat = 1 ∧ (Instr.slti rd rs1 imm).record.op = 4

/-- 43_u_type.md R99. -/
def Obligations.LuiWritesImmediateTimes4096 : Prop :=
  ∀ (rd : Reg) (imm : Int) (s : State),
    (∃ t v, exec (.lui rd imm) s = .next t ∧ WritesRegister s t rd v ∧
      v = wrap32 (imm * 4096) ∧ v.extractLsb' 0 12 = 0) ∧
    (Instr.lui rd imm).record.cat = 3 ∧ (Instr.lui rd imm).record.op = 0

/-! ## MEM_TYPE results, and where each raises the range error -/

/-- 42_mem_type.md, the `lw` rule; the address range is the spec's own decision D9 (log 8). -/
def Obligations.LoadWordReadsLittleEndianInRange : Prop :=
  ∀ (rd rs2 : Reg) (off : Int) (s : State) (ea : Int), ea = s32 (s.reg rs2) + off →
    (-(2 ^ 31 - 1) ≤ ea ∧ ea + 3 ≤ 2 ^ 31 - 1 →
      ∃ t v, exec (.lw rd off rs2) s = .next t ∧ WritesRegister s t rd v ∧
        u32 v = (s.mem.get ea).toNat + (s.mem.get (ea + 1)).toNat * 2 ^ 8 +
          (s.mem.get (ea + 2)).toNat * 2 ^ 16 + (s.mem.get (ea + 3)).toNat * 2 ^ 24) ∧
    (ea < -(2 ^ 31 - 1) ∨ 2 ^ 31 - 1 < ea + 3 →
      exec (.lw rd off rs2) s = .fault .addressOutOfRange) ∧
    (Instr.lw rd off rs2).record.cat = 2 ∧ (Instr.lw rd off rs2).record.op = 0

/-- 42_mem_type.md, the `lb` rule; the address range is the spec's own decision D9 (log 8). -/
def Obligations.LoadByteSignExtendsInRange : Prop :=
  ∀ (rd rs2 : Reg) (off : Int) (s : State) (ea : Int), ea = s32 (s.reg rs2) + off →
    (-(2 ^ 31 - 1) ≤ ea ∧ ea ≤ 2 ^ 31 - 1 →
      ∃ t v, exec (.lb rd off rs2) s = .next t ∧ WritesRegister s t rd v ∧
        s32 v = (s.mem.get ea).toInt) ∧
    (ea < -(2 ^ 31 - 1) ∨ 2 ^ 31 - 1 < ea →
      exec (.lb rd off rs2) s = .fault .addressOutOfRange) ∧
    (Instr.lb rd off rs2).record.cat = 2 ∧ (Instr.lb rd off rs2).record.op = 1

/-- 42_mem_type.md, the `sw` rule; the address range is the spec's own decision D9 (log 8). -/
def Obligations.StoreWordWritesFourBytesInRange : Prop :=
  ∀ (rd rs2 : Reg) (off : Int) (s : State) (ea : Int), ea = s32 (s.reg rs2) + off →
    (-(2 ^ 31 - 1) ≤ ea ∧ ea + 3 ≤ 2 ^ 31 - 1 →
      ∃ t b0 b1 b2 b3, exec (.sw rd off rs2) s = .next t ∧
        StoresBytes s t ea [b0, b1, b2, b3] ∧ b3 ++ b2 ++ b1 ++ b0 = s.reg rd) ∧
    (ea < -(2 ^ 31 - 1) ∨ 2 ^ 31 - 1 < ea + 3 →
      exec (.sw rd off rs2) s = .fault .addressOutOfRange) ∧
    (Instr.sw rd off rs2).record.cat = 2 ∧ (Instr.sw rd off rs2).record.op = 2

/-- 42_mem_type.md, the `sb` rule: the byte is the BASE register's (log 16); the address range is the
spec's own decision D9 (log 8). -/
def Obligations.StoreByteWritesBaseLowByteInRange : Prop :=
  ∀ (r rs2 : Reg) (off : Int) (s : State) (ea : Int), ea = s32 (s.reg rs2) + off →
    (-(2 ^ 31 - 1) ≤ ea ∧ ea ≤ 2 ^ 31 - 1 →
      ∃ t b, exec (.sb r off rs2) s = .next t ∧ StoresBytes s t ea [b] ∧
        b.toNat = u32 (s.reg rs2) % 256) ∧
    (ea < -(2 ^ 31 - 1) ∨ 2 ^ 31 - 1 < ea →
      exec (.sb r off rs2) s = .fault .addressOutOfRange) ∧
    (Instr.sb r off rs2).record.cat = 2 ∧ (Instr.sb r off rs2).record.op = 3

/-! ## The store across instructions -/

/-- The entry count after `sw` grows by the locations not written before, also for the word 0
(42_mem_type.md, the `sw` rule; 10_state.md section 3). -/
def Obligations.StoreWordAddsUnwrittenLocations : Prop :=
  ∀ (rd rs2 : Reg) (off : Int) (s t : State), s.mem.wf → exec (.sw rd off rs2) s = .next t →
    t.mem.size = s.mem.size +
      ((List.range 4).filter
        (fun (k : Nat) => (s.mem.find? (s32 (s.reg rs2) + off + k)).isNone)).length

/-- 10_state.md R20. -/
def Obligations.OnlyStoresGrowTheWrittenSet : Prop :=
  (∀ s : State, s.Inv → ∃ written : List Int, written.Nodup ∧
    (∀ a, a ∈ written ↔ (s.mem.find? a).isSome) ∧ size s = written.length) ∧
  (∀ (i : Instr) (s t : State) (a : Int), exec i s = .next t →
    ((s.mem.find? a).isSome → (t.mem.find? a).isSome) ∧
    ((t.mem.find? a).isSome → (s.mem.find? a).isSome ∨
      (∃ rd off rs2, i = .sw rd off rs2 ∧
        s32 (s.reg rs2) + off ≤ a ∧ a ≤ s32 (s.reg rs2) + off + 3) ∨
      (∃ r off rs2, i = .sb r off rs2 ∧ a = s32 (s.reg rs2) + off))) ∧
  (∀ (l : Line) (s t : State), decode l = .skipped → execLine l s = .next t → t.mem = s.mem)

/-- The source's round-trip property (42_mem_type.md, the `sw` rule; 20_memory.md section 6). The base
must keep its value: `x0` as a base is reset between the two (log 17). -/
def Obligations.StoreWordThenLoadWordReturnsIt : Prop :=
  ∀ (rs rd base : Reg) (off : Int) (s t : State), exec (.sw rs off base) s = .next t →
    (base ≠ 0 ∨ LaunchPremise s) →
    ∃ u, exec (.lw rd off base) t = .next u ∧ WritesRegister t u rd (s.reg rs)

/-- Mixed-width access (20_memory.md section 4): after `sw`, `lb` at byte `k` sees byte `k`,
sign-extended. -/
def Obligations.StoreWordThenLoadByteSeesThatByte : Prop :=
  ∀ (rs rd base : Reg) (off : Int) (k : Nat) (s t : State), k ≤ 3 →
    exec (.sw rs off base) s = .next t → (base ≠ 0 ∨ LaunchPremise s) →
    ∃ u v, exec (.lb rd (off + k) base) t = .next u ∧ WritesRegister t u rd v ∧
      s32 v = ((s.reg rs).extractLsb' (8 * k) 8).toInt

/-- The bucketed organisation of 20_memory.md section 5 and the finite map the machine keeps agree,
for any number of chains: `get`, `size`, and which locations each chain holds (log 5). -/
def Obligations.BucketStoreRefinesFiniteMap : Prop :=
  ∀ (n : Nat) (puts : List (Int × Byte)), 0 < n →
    let b := puts.foldl (fun b p => Buckets.put b p.1 p.2) (Buckets.empty n)
    let m := puts.foldl (fun m p => Memory.put m p.1 p.2) ([] : Memory)
    b.length = n ∧ (∀ a, b.get a = m.get a) ∧ b.size = m.size ∧
      ∀ (s : State) (k : Nat), s.mem = m → s.bucketCount = n → k < n →
        (b.getD k []).Perm (s.chainOf k)

/-- 10_state.md R22. -/
def Obligations.BucketCountIsFixedAndUnobserved : Prop :=
  (∀ vs, (State.init vs).bucketCount = 256) ∧
  (∀ s t : State, step s = .next t → t.bucketCount = s.bucketCount) ∧
  (∀ (i : Instr) (s : State) (n : Nat),
    (∀ t, exec i s = .next t →
      exec i { s with bucketCount := n } = .next { t with bucketCount := n }) ∧
    (∀ f, exec i s = .fault f → exec i { s with bucketCount := n } = .fault f)) ∧
  (∀ (s : State) (n : Nat) (a : Int),
    readMem { s with bucketCount := n } a = readMem s a ∧
      size { s with bucketCount := n } = size s)

/-! ## Registers -/

/-- 10_state.md R13. -/
def Obligations.EveryOkStepResetsRegisterZero : Prop :=
  (∀ (i : Instr) (s t : State), exec i s = .next t → t.outcome = some .ok ∧ t.reg 0 = 0) ∧
  (∀ (l : Line) (s t : State), execLine l s = .next t → t.outcome = some .ok → t.reg 0 = 0)

/-- 10_state.md R10: an instruction depends on no register it does not read, and changes none it does
not write (the reset of `x0` apart). -/
def Obligations.InstructionTouchesOnlyNamedRegisters : Prop :=
  ∀ (i : Instr) (s s' : State), s.mem = s'.mem → (∀ r ∈ reads i, s.reg r = s'.reg r) →
    (∀ t, exec i s = .next t →
      (∃ t', exec i s' = .next t' ∧ (∀ r ∈ writes i, t.reg r = t'.reg r) ∧ t.mem = t'.mem) ∧
      ∀ r, r ∉ writes i → r ≠ 0 → t.reg r = s.reg r) ∧
    (∀ f, exec i s = .fault f → exec i s' = .fault f)

/-- Once `x0` is 0 it stays 0, whatever the step (10_state.md section 1; log 17). -/
def Obligations.RegisterZeroStaysZero : Prop :=
  ∀ s t : State, LaunchPremise s → step s = .next t → LaunchPremise t

/-! ## Decoding -/

/-- 30_encoding.md R54. -/
def Obligations.ClassificationIsTheTable : Prop :=
  classify "add".toList = .rType .add ∧ classify "sub".toList = .rType .sub ∧
  classify "and".toList = .rType .and ∧ classify "or".toList = .rType .or ∧
  classify "xor".toList = .rType .xor ∧ classify "nor".toList = .rType .nor ∧
  classify "slt".toList = .rType .slt ∧ classify "sll".toList = .rType .sll ∧
  classify "sra".toList = .rType .sra ∧ classify "addi".toList = .iType .addi ∧
  classify "andi".toList = .iType .andi ∧ classify "ori".toList = .iType .ori ∧
  classify "xori".toList = .iType .xori ∧ classify "slti".toList = .iType .slti ∧
  classify "lw".toList = .memType .lw ∧ classify "lb".toList = .memType .lb ∧
  classify "sw".toList = .memType .sw ∧ classify "sb".toList = .memType .sb ∧
  classify "lui".toList = .uType .lui ∧
  ∀ mn : Line,
    mn ∉ [ "add".toList, "sub".toList, "and".toList, "or".toList, "xor".toList, "nor".toList,
      "slt".toList, "sll".toList, "sra".toList, "addi".toList, "andi".toList, "ori".toList,
      "xori".toList, "slti".toList, "lw".toList, "lb".toList, "sw".toList, "sb".toList,
      "lui".toList ] →
    classify mn = .unknown

/-- A line whose mnemonic is UNKNOWN is skipped (30_encoding.md section 2), as a step of a run: that the
step takes the line from a queue is the model's choice (log 1, DESIGN CHOICE; 70_reset_and_hazards.md
section 2), and so is the field that records SKIPPED (log 6, DESIGN CHOICE). -/
def Obligations.UnknownMnemonicIsSkipped : Prop :=
  ∀ (mn ops : Line) (rest : List Line) (s : State), ' ' ∉ mn → classify mn = .unknown →
    (s.lines = (mn ++ ' ' :: ops) :: rest ∨ s.lines = mn :: rest) →
    ∃ t, step s = .next t ∧ t.regs = s.regs ∧ t.mem = s.mem ∧ t.bucketCount = s.bucketCount ∧
      t.lines = rest ∧ t.outcome = some .skipped

/-- The whitespace removed from the operand string is exactly U+0020 and U+0009 to U+000D: inserting any
of the six anywhere in the operand string leaves the decoding unchanged, and any other character put
before the first token of an `add` spoils it (30_encoding.md section 3; the set is the spec's own
decision D4, log 12). -/
def Obligations.OperandWhitespaceIsIgnored : Prop :=
  (∀ s : Line, removeWhitespace s = s.filter (fun c =>
    c ∉ [Char.ofNat 0x20, Char.ofNat 0x09, Char.ofNat 0x0A, Char.ofNat 0x0B, Char.ofNat 0x0C,
      Char.ofNat 0x0D])) ∧
  (∀ (mn u v : Line) (c : Char), ' ' ∉ mn →
    c ∈ [Char.ofNat 0x20, Char.ofNat 0x09, Char.ofNat 0x0A, Char.ofNat 0x0B, Char.ofNat 0x0C,
      Char.ofNat 0x0D] →
    decode (mn ++ ' ' :: (u ++ c :: v)) = decode (mn ++ ' ' :: (u ++ v))) ∧
  (∀ (c : Char) (i : Instr),
    c ∉ [Char.ofNat 0x20, Char.ofNat 0x09, Char.ofNat 0x0A, Char.ofNat 0x0B, Char.ofNat 0x0C,
      Char.ofNat 0x0D] →
    decode ("add".toList ++ ' ' :: c :: "x1,x2,x3".toList) ≠ .instr i)

/-- INVALID_INSTRUCTION exactly for the wrong shape of a known mnemonic's operands, whatever the tokens
are (30_encoding.md section 3; 60_exceptions.md section 1; the check is the spec's own decision D5,
log 13). -/
def Obligations.WrongShapeIsInvalidInstruction : Prop :=
  ∀ l : Line, decode l = .error .invalidInstruction ↔
    match classify (splitLine l).1 with
    | .rType _ => (pieces (splitLine l).2).length ≠ 3
    | .iType _ => (pieces (splitLine l).2).length ≠ 3
    | .memType _ => ¬ ∃ t1 o b, pieces (splitLine l).2 = [t1, o ++ '(' :: (b ++ [')'])] ∧
        '(' ∉ o ∧ ')' ∉ o ∧ '(' ∉ b ∧ ')' ∉ b
    | .uType _ => (pieces (splitLine l).2).length ≠ 2
    | .unknown => False

/-- Register tokens (30_encoding.md section 5; decision D6, log 13). -/
def Obligations.RegisterTokensAreXThenDigits : Prop :=
  ∀ t : Line,
    (∀ r : Reg, parseReg t = .ok r ↔
      ∃ d, t = 'x' :: d ∧ d ≠ [] ∧ (∀ c ∈ d, '0' ≤ c ∧ c ≤ '9') ∧ decVal d = r.val) ∧
    (∀ e, parseReg t = .error e → e = .invalidOperand)

/-- Immediate tokens: hexadecimal, decimal, non-numeric, and what is refused (30_encoding.md section 5;
decision D7, log 13). -/
def Obligations.ImmediateTokensHaveTheirValues : Prop :=
  (∀ h : Line, h ≠ [] → h.all isHexDigit = true → hexVal h ≤ 2 ^ 31 - 1 →
    parseImm ('0' :: 'x' :: h) = .ok (hexVal h) ∧
    parseImm ('-' :: '0' :: 'x' :: h) = .ok (-(hexVal h : Int))) ∧
  (∀ h : Line, (h = [] ∨ h.all isHexDigit = false ∨ 2 ^ 31 - 1 < hexVal h) →
    parseImm ('0' :: 'x' :: h) = .error .invalidOperand ∧
    parseImm ('-' :: '0' :: 'x' :: h) = .error .invalidOperand) ∧
  (∀ d : Line, d ≠ [] → d.all isDecDigit = true →
    (decVal d ≤ 2 ^ 31 - 1 → parseImm d = .ok (decVal d) ∧ parseImm ('+' :: d) = .ok (decVal d)) ∧
    (2 ^ 31 - 1 < decVal d → parseImm d = .error .invalidOperand ∧
      parseImm ('+' :: d) = .error .invalidOperand) ∧
    (decVal d ≤ 2 ^ 31 → parseImm ('-' :: d) = .ok (-(decVal d : Int))) ∧
    (2 ^ 31 < decVal d → parseImm ('-' :: d) = .error .invalidOperand)) ∧
  (∀ t : Line, (∀ c cs, t = c :: cs → isDecDigit c = false) →
    parseImm ('-' :: t) = .ok 0 ∧ parseImm ('+' :: t) = .ok 0 ∧
    (t.head? ≠ some '-' → t.head? ≠ some '+' → parseImm t = .ok 0)) ∧
  (∀ (c : Char) (cs : Line), isDecDigit c = true → cs.all isDecDigit = false →
    parseImm ('+' :: c :: cs) = .error .invalidOperand ∧
    (¬ (c = '0' ∧ cs.head? = some 'x') →
      parseImm (c :: cs) = .error .invalidOperand ∧
      parseImm ('-' :: c :: cs) = .error .invalidOperand))

/-- Offset tokens: signed decimal in range and nothing else (30_encoding.md section 5; decision D8,
log 13). -/
def Obligations.OffsetTokensAreSignedDecimal : Prop :=
  ∀ t : Line,
    (∀ n : Int, parseOff t = .ok n ↔
      ∃ d, d ≠ [] ∧ d.all isDecDigit = true ∧ -(2 ^ 31) ≤ n ∧ n ≤ 2 ^ 31 - 1 ∧
        ((t = '-' :: d ∧ n = -(decVal d : Int)) ∨
          ((t = d ∨ t = '+' :: d) ∧ n = decVal d))) ∧
    (∀ e, parseOff t = .error e → e = .invalidOperand)

/-- Whatever a line decodes to is well formed: every immediate and offset is in range
(30_encoding.md section 6). -/
def Obligations.DecodedInstructionsAreWellFormed : Prop :=
  ∀ (l : Line) (i : Instr), decode l = .instr i → i.wf = true

/-- Decoding the line of any well-formed instruction gives it back, every register and every immediate
(30_encoding.md section 8; the encoder's spelling is the model's choice, log 18). -/
def Obligations.DecodeOfEncodeIsTheInstruction : Prop :=
  ∀ i : Instr, i.wf = true → decode (encode i) = .instr i

/-- Lines written out from the spec's formats decode to what they stand for (30_encoding.md sections 4
and 8; 95_test_vectors.md part 3). -/
def Obligations.WrittenLinesDecodeAsTheSpecSays : Prop :=
  decode "add x3,x1,x2".toList = .instr (.add 3 1 2) ∧
  decode "addi x2,x0,-3".toList = .instr (.addi 2 0 (-3)) ∧
  decode "sw x3,-8(x2)".toList = .instr (.sw 3 (-8) 2) ∧
  decode "lui x1,0x12345".toList = .instr (.lui 1 74565)

/-! ## Steps and runs -/

/-- A step runs the decoded instruction on the state whose line was taken; a skipped line and a decode
error as the decoder says; a table word placed by `withFetchWord` is what the next step runs; and with no
line handed over the block is idle (10_state.md section 5; 60_exceptions.md section 3; the queue and the
idle step are the model's choice, logs 1, 2 and 9). -/
def Obligations.StepRunsDecodedInstruction : Prop :=
  (∀ (s : State) (l : Line) (rest : List Line), s.lines = l :: rest →
    (∀ i, decode l = .instr i → step s = exec i (s.withLines rest)) ∧
    (decode l = .skipped → step s = .next ((s.withLines rest).returning .skipped)) ∧
    (decode l = .error .invalidInstruction → step s = .fault .invalidInstruction) ∧
    (decode l = .error .invalidOperand → step s = .fault .invalidOperand)) ∧
  (∀ (s : State) (nbits w : Nat) (i : Instr), decodeTableWord nbits w = some i →
    step (s.withFetchWord nbits w) = exec i s) ∧
  (∀ s : State, s.lines = [] → step s = .next s)

/-- Every step returns one of the outcomes the table of 60_exceptions.md section 1 allows its line:
SKIPPED exactly for UNKNOWN, ADDRESS_OUT_OF_RANGE only for MEM_TYPE, and the decode errors exactly where
the decoder raises them. That no call returns ALLOCATION_FAILURE is the spec's own decision D17, which
errs toward proving (log 15, unsafe): software that runs out of memory has a run the model lacks. -/
def Obligations.EveryLineReturnsAnAllowedOutcome : Prop :=
  ∀ (l : Line) (s : State), ∃ c, (stepText l s).1 = some c ∧ c ≠ .allocationFailure ∧
    (c = .skipped ↔ classify (splitLine l).1 = .unknown) ∧
    (c = .addressOutOfRange → ∃ op, classify (splitLine l).1 = .memType op) ∧
    (c = .invalidInstruction ↔ decode l = .error .invalidInstruction) ∧
    (c = .invalidOperand ↔ decode l = .error .invalidOperand)

/-- An error outcome changes no state and the block accepts the next line; a skipped line changes no
register and no location (60_exceptions.md section 1; decision D12, log 21). -/
def Obligations.ErrorOutcomeChangesNoState : Prop :=
  ∀ (l : Line) (s t : State) (c : OutcomeCode), stepText l s = (some c, t) →
    (2 ≤ c.num → t = s) ∧ (c.num = 1 → t.regs = s.regs ∧ t.mem = s.mem) ∧
    (c.num = 0 → t.reg 0 = 0)

/-- A run takes its lines in order, one a step (70_reset_and_hazards.md section 2; the queue is the
model's, log 1). -/
def Obligations.RunTakesLinesInOrder : Prop :=
  ∀ (k : Nat) (s t : State), Host.Core.run Sys2Proof.core k s = .next t →
    t.lines = s.lines.drop k

/-- Where a run reaches a line that the decoder refuses, or whose instruction raises the range error, that
step faults with that error and every longer run stops there with it; a skipped line faults no run; and
nothing else stops a step (70_reset_and_hazards.md section 2; that the model stops at an error is the
spec's own decision D15, log 7, and the queue is the model's, log 1). -/
def Obligations.ErrorLineFaultsTheRunAndNothingElseDoes : Prop :=
  ∀ (k : Nat) (s₀ s : State) (l : Line) (rest : List Line),
    Host.Core.run Sys2Proof.core k s₀ = .next s → s.lines = l :: rest →
    (decode l = .error .invalidInstruction → step s = .fault .invalidInstruction ∧
      ∀ j, Host.Core.run Sys2Proof.core (k + 1 + j) s₀ = .fault .invalidInstruction) ∧
    (decode l = .error .invalidOperand → step s = .fault .invalidOperand ∧
      ∀ j, Host.Core.run Sys2Proof.core (k + 1 + j) s₀ = .fault .invalidOperand) ∧
    (∀ i, decode l = .instr i → exec i (s.withLines rest) = .fault .addressOutOfRange →
      step s = .fault .addressOutOfRange ∧
      ∀ j, Host.Core.run Sys2Proof.core (k + 1 + j) s₀ = .fault .addressOutOfRange) ∧
    (decode l = .skipped → ∃ t, step s = .next t ∧
      Host.Core.run Sys2Proof.core (k + 1) s₀ = .next t) ∧
    ((∀ t, step s ≠ .next t) →
      decode l = .error .invalidInstruction ∨ decode l = .error .invalidOperand ∨
      ∃ i, decode l = .instr i ∧ exec i (s.withLines rest) = .fault .addressOutOfRange)

/-- Every step keeps the machine's invariant. Of its clauses, the strictly rising addresses are the form
the model keeps the store in (log 4, DEDUCED), the outcome field that the clause on `x0` names is the
model's own (log 6, DESIGN CHOICE), and the address range is the spec's own decision D9 (log 8); the
bucket count and the reset of `x0` are rules of 10_state.md sections 1 and 3. -/
def Obligations.StepKeepsTheMachineInvariant : Prop :=
  ∀ s t : State, s.Inv → step s = .next t → t.Inv

/-! ## Reset and read-back -/

/-- The state after `init` meets the invariant, whatever the caller's values, and so does `State.reset`,
whose registers are the model's choice (log 3, DESIGN CHOICE). The canonical form is the model's (log 4,
DEDUCED). The clause on `x0` holds for a non-zero initial `x0` because the model's outcome field is none
at `init` (log 6, DESIGN CHOICE). -/
def Obligations.InitMeetsTheMachineInvariant : Prop :=
  (∀ vs, (State.init vs).Inv) ∧ State.reset.Inv

/-- 10_state.md R29. -/
def Obligations.InitLeavesTheStoreEmpty : Prop :=
  ∀ vs, (∀ a, (State.init vs).mem.find? a = none) ∧ size (State.init vs) = 0 ∧
    (∀ a, readMem (State.init vs) a = 0) ∧ (State.init vs).bucketCount = 256

/-- `init` copies the caller's 32 values, `x0` included (10_state.md section 6; decision D16, log 17);
`State.reset` takes zeros for them (the model's choice, log 3). -/
def Obligations.InitCopiesTheCallersRegisters : Prop :=
  (∀ (vs : Vector Int 32) (i : Reg), (State.init vs).reg i = wrap32 vs[i] ∧
    (-(2 ^ 31) ≤ vs[i] → vs[i] ≤ 2 ^ 31 - 1 → s32 ((State.init vs).reg i) = vs[i])) ∧
  State.reset = State.init (Vector.replicate 32 0)

/-- 10_state.md R27. -/
def Obligations.ReadBackOfMemoryAndSize : Prop :=
  ∀ s : State, (∀ a, readMem s a = (s.mem.get a).toNat ∧ readMem s a ≤ 255) ∧
    (∀ a, s.mem.find? a = none → readMem s a = 0) ∧ size s = s.mem.size

/-- `read_reg` (10_state.md section 5; decision D18, log 19). -/
def Obligations.ReadBackOfRegisters : Prop :=
  ∀ s : State, (∀ r : Reg, readReg s (r.val : Int) = .ok (s32 (s.reg r))) ∧
    (∀ i : Int, (i < 0 ∨ 31 < i) → readReg s i = .error .invalidOperand)

/-! ## Digits and well-shaped lines -/

/-- The digit sets and the values of digit strings that the token statements speak of, character by
character: `0-9`, and `0-9`, `a-f`, `A-F` for hexadecimal (30_encoding.md section 5; the hexadecimal set
is the spec's own decision D7, log 13). -/
def Obligations.DigitSetsAndDigitStringValues : Prop :=
  (∀ c, isDecDigit c = true ↔ c ∈ "0123456789".toList) ∧
  (∀ c, isHexDigit c = true ↔ c ∈ "0123456789abcdefABCDEF".toList) ∧
  decVal [] = 0 ∧ hexVal [] = 0 ∧
  (∀ (d : Line) (n : Nat) (c : Char), "0123456789".toList[n]? = some c →
    decVal (d ++ [c]) = 10 * decVal d + n) ∧
  (∀ (h : Line) (n : Nat) (c : Char),
    "0123456789abcdef".toList[n]? = some c ∨ "0123456789ABCDEF".toList[n]? = some c →
    hexVal (h ++ [c]) = 16 * hexVal h + n)

/-- A line of the right shape, its tokens in any spelling, decodes to the instruction whose operands are
the token parsers' answers, and to INVALID_OPERAND where one of them refuses (30_encoding.md section 4;
60_exceptions.md section 1; decisions D6 to D8, log 13). The tokens hold no comma and no whitespace, and
those of `o(b)` no parenthesis; whitespace between them is `OperandWhitespaceIsIgnored`. -/
def Obligations.WellShapedLinesDecodeByTheirTokens : Prop :=
  (∀ p ∈ [("add".toList, Instr.add), ("sub".toList, Instr.sub), ("and".toList, Instr.and),
      ("or".toList, Instr.or), ("xor".toList, Instr.xor), ("nor".toList, Instr.nor),
      ("slt".toList, Instr.slt), ("sll".toList, Instr.sll), ("sra".toList, Instr.sra)],
    ∀ t1 t2 t3 : Line, OperandToken t1 → OperandToken t2 → OperandToken t3 →
      decode (p.1 ++ ' ' :: (t1 ++ ',' :: (t2 ++ ',' :: t3))) =
        match parseReg t1, parseReg t2, parseReg t3 with
        | .ok rd, .ok rs1, .ok rs2 => .instr (p.2 rd rs1 rs2)
        | _, _, _ => .error .invalidOperand) ∧
  (∀ p ∈ [("addi".toList, Instr.addi), ("andi".toList, Instr.andi), ("ori".toList, Instr.ori),
      ("xori".toList, Instr.xori), ("slti".toList, Instr.slti)],
    ∀ t1 t2 t3 : Line, OperandToken t1 → OperandToken t2 → OperandToken t3 →
      decode (p.1 ++ ' ' :: (t1 ++ ',' :: (t2 ++ ',' :: t3))) =
        match parseReg t1, parseReg t2, parseImm t3 with
        | .ok rd, .ok rs1, .ok imm => .instr (p.2 rd rs1 imm)
        | _, _, _ => .error .invalidOperand) ∧
  (∀ p ∈ [("lw".toList, Instr.lw), ("lb".toList, Instr.lb), ("sw".toList, Instr.sw),
      ("sb".toList, Instr.sb)],
    ∀ t1 o b : Line, OperandToken t1 → OperandToken o → OperandToken b →
      '(' ∉ o → ')' ∉ o → '(' ∉ b → ')' ∉ b →
      decode (p.1 ++ ' ' :: (t1 ++ ',' :: (o ++ '(' :: (b ++ [')'])))) =
        match parseReg t1, parseOff o, parseReg b with
        | .ok rd, .ok off, .ok rs2 => .instr (p.2 rd off rs2)
        | _, _, _ => .error .invalidOperand) ∧
  (∀ t1 t2 : Line, OperandToken t1 → OperandToken t2 →
    decode ("lui".toList ++ ' ' :: (t1 ++ ',' :: t2)) =
      match parseReg t1, parseImm t2 with
      | .ok rd, .ok imm => .instr (.lui rd imm)
      | _, _ => .error .invalidOperand)
end

