-- ==== Sys2Proof/Laws/Decode.lean ====
section
/-! SUPPORT. The laws of the decoder's pieces: splitting, whitespace, digits, and each token parser
on the text the encoder writes. -/

namespace Sys2Proof

/-! ## Splitting -/

theorem splitLine_space (mn ops : Line) (h : ' ' ∉ mn) : splitLine (mn ++ ' ' :: ops) = (mn, ops) := by
  have ht : ∀ c ∈ mn, (c != ' ') = true := fun c hc => by
    simp only [bne_iff_ne]; rintro rfl; exact h hc
  simp [splitLine, List.takeWhile_append_of_pos ht, List.dropWhile_append_of_pos ht]

theorem splitCommas_ne_nil (s : Line) : splitCommas s ≠ [] := by
  cases s with
  | nil => simp [splitCommas]
  | cons c cs =>
    simp only [splitCommas]
    split
    · simp
    · split <;> simp

theorem splitCommas_noComma (s : Line) (h : ',' ∉ s) : splitCommas s = [s] := by
  induction s with
  | nil => rfl
  | cons c cs ih =>
    simp only [List.mem_cons, not_or] at h
    simp [splitCommas, Ne.symm h.1, ih h.2]

theorem splitCommas_append (s rest : Line) (h : ',' ∉ s) :
    splitCommas (s ++ ',' :: rest) = s :: splitCommas rest := by
  induction s with
  | nil => simp [splitCommas]
  | cons c cs ih =>
    simp only [List.mem_cons, not_or] at h
    simp [splitCommas, Ne.symm h.1, ih h.2]

/-- The whitespace characters, listed (30_encoding.md R57). -/
theorem isWhitespace_iff {c : Char} : isWhitespace c = true ↔
    c ∈ [Char.ofNat 0x20, Char.ofNat 0x09, Char.ofNat 0x0A, Char.ofNat 0x0B, Char.ofNat 0x0C,
      Char.ofNat 0x0D] := by
  have hc : ∀ n, n < 128 → (c = Char.ofNat n ↔ c.toNat = n) := fun n hn =>
    ⟨fun h => by rw [h]; interval_cases n <;> rfl, fun h => by rw [← h, Char.ofNat_toNat]⟩
  simp only [List.mem_cons, List.not_mem_nil, or_false, hc 0x20 (by decide), hc 0x09 (by decide),
    hc 0x0A (by decide), hc 0x0B (by decide), hc 0x0C (by decide), hc 0x0D (by decide),
    isWhitespace, Bool.or_eq_true, Bool.and_eq_true, decide_eq_true_eq, beq_iff_eq]
  omega

theorem removeWhitespace_eq_self (s : Line) (h : ∀ c ∈ s, isWhitespace c = false) :
    removeWhitespace s = s := by
  simp only [removeWhitespace, List.filter_eq_self]
  exact fun c hc => by simp [h c hc]

/-! ## The immediate range -/

theorem immInRange_iff {n : Int} :
    immInRange n = true ↔ -2147483648 ≤ n ∧ n ≤ 2147483647 := by
  unfold immInRange
  rw [decide_eq_true_iff]
  rfl

/-! ## Digits -/

theorem digitChar_toNat {d : Nat} (h : d < 10) : (digitChar d).toNat = 48 + d := by
  interval_cases d <;> rfl

theorem decVal_append (a : Line) (c : Char) :
    decVal (a ++ [c]) = 10 * decVal a + (c.toNat - 48) := by
  simp [decVal, List.foldl_append]

theorem hexVal_append (a : Line) (c : Char) : hexVal (a ++ [c]) = 16 * hexVal a + hexDigitVal c := by
  simp [hexVal, List.foldl_append]

theorem decVal_decDigits (k n : Nat) (h : n < 10 ^ k) : decVal (decDigits k n) = n := by
  induction k generalizing n with
  | zero => simp only [Nat.pow_zero, Nat.lt_one_iff] at h; subst h; rfl
  | succ k ih =>
    simp only [decDigits]
    split
    · rename_i hn
      simp [decVal, digitChar_toNat hn]
    · have hk : n / 10 < 10 ^ k := by
        rw [Nat.div_lt_iff_lt_mul (by omega)]; rw [Nat.pow_succ] at h; exact h
      rw [decVal_append, ih _ hk, digitChar_toNat (Nat.mod_lt _ (by omega))]
      omega

theorem decDigits_digits (k n : Nat) : ∀ c ∈ decDigits k n, isDecDigit c = true := by
  induction k generalizing n with
  | zero => simp [decDigits]
  | succ k ih =>
    have hd : ∀ d, d < 10 → isDecDigit (digitChar d) = true := fun d h => by
      simp [isDecDigit, digitChar_toNat h]; omega
    simp only [decDigits]
    split
    · rename_i hn
      intro c hc
      rw [List.mem_singleton.mp hc]
      exact hd n hn
    · intro c hc
      rcases List.mem_append.mp hc with hc | hc
      · exact ih _ c hc
      · rw [List.mem_singleton.mp hc]
        exact hd _ (Nat.mod_lt _ (by omega))

theorem natText_ne_nil (n : Nat) : natText n ≠ [] := by
  simp only [natText, decDigits]
  split <;> simp

theorem natText_digits (n : Nat) : ∀ c ∈ natText n, isDecDigit c = true := decDigits_digits 10 n

theorem decVal_natText {n : Nat} (h : n < 10 ^ 10) : decVal (natText n) = n :=
  decVal_decDigits 10 n h

/-- A digit is none of the characters the decoder splits at, and no whitespace. -/
theorem digit_plain {c : Char} (h : isDecDigit c = true) :
    c ≠ ',' ∧ c ≠ '(' ∧ c ≠ ')' ∧ c ≠ '-' ∧ c ≠ '+' ∧ c ≠ 'x' ∧ isWhitespace c = false := by
  simp only [isDecDigit, Bool.and_eq_true, decide_eq_true_eq] at h
  refine ⟨?_, ?_, ?_, ?_, ?_, ?_, ?_⟩
  any_goals (rintro rfl; revert h; decide)
  simp [isWhitespace]; omega

/-! ## Tokens -/

theorem parseReg_regText (r : Reg) : parseReg (regText r) = .ok r := by
  have hr : r.val < 10 ^ 10 := by have := r.isLt; omega
  have hv := decVal_natText hr
  have hle : decVal (natText r.val) ≤ 31 := by rw [hv]; have := r.isLt; omega
  simp only [parseReg, regText]
  rw [if_pos ⟨natText_ne_nil _, List.all_eq_true.mpr (natText_digits _)⟩, dif_pos hle]
  simp [hv]

theorem parseSigned_natText (sign : Int) (n : Nat) (hn : n < 10 ^ 10)
    (h : immInRange (sign * n) = true) : parseSigned sign (natText n) = .ok (sign * n) := by
  have hv := decVal_natText hn
  rw [parseSigned, if_pos ⟨natText_ne_nil n, List.all_eq_true.mpr (natText_digits n), by rwa [hv]⟩, hv]

/-! ## The formats -/

/-- A sequence of parses that succeeds, taken apart. -/
theorem bind_eq_ok {α β : Type} {x : Except DecodeError α} {f : α → Except DecodeError β} {b : β}
    (h : (x >>= f) = .ok b) : ∃ a, x = .ok a ∧ f a = .ok b := by
  cases x with
  | ok a => exact ⟨a, rfl, h⟩
  | error e => exact nomatch h

theorem parseR_eq_ok {op : ROp} {ps : List Line} {i : Instr} (h : parseR op ps = .ok i) :
    ∃ t1 t2 t3 rd rs1 rs2, ps = [t1, t2, t3] ∧ parseReg t1 = .ok rd ∧ parseReg t2 = .ok rs1 ∧
      parseReg t3 = .ok rs2 ∧ i = op.instr rd rs1 rs2 := by
  unfold parseR at h
  split at h
  · obtain ⟨rd, h1, h⟩ := bind_eq_ok h
    obtain ⟨rs1, h2, h⟩ := bind_eq_ok h
    obtain ⟨rs2, h3, h⟩ := bind_eq_ok h
    exact ⟨_, _, _, rd, rs1, rs2, rfl, h1, h2, h3, (Except.ok.inj h).symm⟩
  · exact nomatch h

theorem parseI_eq_ok {op : IOp} {ps : List Line} {i : Instr} (h : parseI op ps = .ok i) :
    ∃ t1 t2 t3 rd rs1 imm, ps = [t1, t2, t3] ∧ parseReg t1 = .ok rd ∧ parseReg t2 = .ok rs1 ∧
      parseImm t3 = .ok imm ∧ i = op.instr rd rs1 imm := by
  unfold parseI at h
  split at h
  · obtain ⟨rd, h1, h⟩ := bind_eq_ok h
    obtain ⟨rs1, h2, h⟩ := bind_eq_ok h
    obtain ⟨imm, h3, h⟩ := bind_eq_ok h
    exact ⟨_, _, _, rd, rs1, imm, rfl, h1, h2, h3, (Except.ok.inj h).symm⟩
  · exact nomatch h

theorem parseMem_eq_ok {op : MemOp} {ps : List Line} {i : Instr} (h : parseMem op ps = .ok i) :
    ∃ t1 t2 o b rd off rs2, ps = [t1, t2] ∧ splitOffset t2 = some (o, b) ∧
      parseReg t1 = .ok rd ∧ parseOff o = .ok off ∧ parseReg b = .ok rs2 ∧
      i = op.instr rd off rs2 := by
  unfold parseMem at h
  split at h
  · split at h
    · rename_i hs
      obtain ⟨rd, h1, h⟩ := bind_eq_ok h
      obtain ⟨off, h2, h⟩ := bind_eq_ok h
      obtain ⟨rs2, h3, h⟩ := bind_eq_ok h
      exact ⟨_, _, _, _, rd, off, rs2, rfl, hs, h1, h2, h3, (Except.ok.inj h).symm⟩
    · exact nomatch h
  · exact nomatch h

theorem parseU_eq_ok {op : UOp} {ps : List Line} {i : Instr} (h : parseU op ps = .ok i) :
    ∃ t1 t2 rd imm, ps = [t1, t2] ∧ parseReg t1 = .ok rd ∧ parseImm t2 = .ok imm ∧
      i = op.instr rd imm := by
  unfold parseU at h
  split at h
  · obtain ⟨rd, h1, h⟩ := bind_eq_ok h
    obtain ⟨imm, h2, h⟩ := bind_eq_ok h
    exact ⟨_, _, rd, imm, rfl, h1, h2, (Except.ok.inj h).symm⟩
  · exact nomatch h

theorem ofParse_eq_instr {r : Except DecodeError Instr} {i : Instr} :
    Decoded.ofParse r = .instr i ↔ r = .ok i := by
  cases r <;> simp [Decoded.ofParse]

/-- A line is skipped exactly when its mnemonic is UNKNOWN (30_encoding.md R56). -/
theorem decode_eq_skipped {l : Line} :
    decode l = .skipped ↔ classify (splitLine l).1 = .unknown := by
  have hp : ∀ r, Decoded.ofParse r ≠ .skipped := fun r => by cases r <;> simp [Decoded.ofParse]
  unfold decode
  cases classify (splitLine l).1 <;> simp [hp]

/-- Everything a decoded instruction can come from. -/
theorem decode_eq_instr {l : Line} {i : Instr} (h : decode l = .instr i) :
    (∃ op, classify (splitLine l).1 = .rType op ∧ parseR op (pieces (splitLine l).2) = .ok i) ∨
    (∃ op, classify (splitLine l).1 = .iType op ∧ parseI op (pieces (splitLine l).2) = .ok i) ∨
    (∃ op, classify (splitLine l).1 = .memType op ∧
      parseMem op (pieces (splitLine l).2) = .ok i) ∨
    (∃ op, classify (splitLine l).1 = .uType op ∧ parseU op (pieces (splitLine l).2) = .ok i) := by
  unfold decode at h
  cases hc : classify (splitLine l).1 with
  | rType op => rw [hc] at h; exact .inl ⟨op, rfl, ofParse_eq_instr.mp h⟩
  | iType op => rw [hc] at h; exact .inr (.inl ⟨op, rfl, ofParse_eq_instr.mp h⟩)
  | memType op => rw [hc] at h; exact .inr (.inr (.inl ⟨op, rfl, ofParse_eq_instr.mp h⟩))
  | uType op => rw [hc] at h; exact .inr (.inr (.inr ⟨op, rfl, ofParse_eq_instr.mp h⟩))
  | unknown => rw [hc] at h; exact nomatch h

end Sys2Proof
end

