-- ==== Sys2Proof/Laws/State.lean ====
section
/-! SUPPORT. What each update of the state does to each field: one lemma per field per update, and the
register laws. -/

namespace Sys2Proof.Machine

variable (s : State) (r i : Reg) (v : Word)

/-! ## Writing a register -/

@[simp] theorem setReg_mem : (s.setReg r v).mem = s.mem := rfl
@[simp] theorem setReg_bucketCount : (s.setReg r v).bucketCount = s.bucketCount := rfl
@[simp] theorem setReg_lines : (s.setReg r v).lines = s.lines := rfl
@[simp] theorem setReg_outcome : (s.setReg r v).outcome = s.outcome := rfl

theorem reg_setReg : (s.setReg r v).reg i = if r = i then v else s.reg i := by
  simp [State.reg, State.setReg, Vector.getElem_set, Fin.ext_iff]

@[simp] theorem reg_setReg_same : (s.setReg r v).reg r = v := by simp [reg_setReg]

theorem reg_setReg_other (h : i ≠ r) : (s.setReg r v).reg i = s.reg i := by
  simp [reg_setReg, Ne.symm h]

/-! ## Updates of the other fields -/

@[simp] theorem reg_withMem (m : Memory) : (s.withMem m).reg i = s.reg i := rfl
@[simp] theorem withMem_regs (m : Memory) : (s.withMem m).regs = s.regs := rfl
@[simp] theorem withMem_mem (m : Memory) : (s.withMem m).mem = m := rfl
@[simp] theorem withMem_bucketCount (m : Memory) : (s.withMem m).bucketCount = s.bucketCount := rfl
@[simp] theorem withMem_lines (m : Memory) : (s.withMem m).lines = s.lines := rfl
@[simp] theorem withMem_outcome (m : Memory) : (s.withMem m).outcome = s.outcome := rfl

@[simp] theorem reg_withLines (ls : List Line) : (s.withLines ls).reg i = s.reg i := rfl
@[simp] theorem withLines_regs (ls : List Line) : (s.withLines ls).regs = s.regs := rfl
@[simp] theorem withLines_mem (ls : List Line) : (s.withLines ls).mem = s.mem := rfl
@[simp] theorem withLines_bucketCount (ls : List Line) : (s.withLines ls).bucketCount = s.bucketCount := rfl
@[simp] theorem withLines_lines (ls : List Line) : (s.withLines ls).lines = ls := rfl
@[simp] theorem withLines_outcome (ls : List Line) : (s.withLines ls).outcome = s.outcome := rfl

@[simp] theorem reg_returning (c : OutcomeCode) : (s.returning c).reg i = s.reg i := rfl
@[simp] theorem returning_regs (c : OutcomeCode) : (s.returning c).regs = s.regs := rfl
@[simp] theorem returning_mem (c : OutcomeCode) : (s.returning c).mem = s.mem := rfl
@[simp] theorem returning_bucketCount (c : OutcomeCode) : (s.returning c).bucketCount = s.bucketCount := rfl
@[simp] theorem returning_lines (c : OutcomeCode) : (s.returning c).lines = s.lines := rfl
@[simp] theorem returning_outcome (c : OutcomeCode) : (s.returning c).outcome = some c := rfl

@[simp] theorem reg_withNextLine (l : Line) : (s.withNextLine l).reg i = s.reg i := rfl
@[simp] theorem withNextLine_regs (l : Line) : (s.withNextLine l).regs = s.regs := rfl
@[simp] theorem withNextLine_mem (l : Line) : (s.withNextLine l).mem = s.mem := rfl
@[simp] theorem withNextLine_bucketCount (l : Line) : (s.withNextLine l).bucketCount = s.bucketCount := rfl
@[simp] theorem withNextLine_lines (l : Line) : (s.withNextLine l).lines = l :: s.lines := rfl
@[simp] theorem withNextLine_outcome (l : Line) : (s.withNextLine l).outcome = s.outcome := rfl

/-! ## `init` -/

@[simp] theorem init_mem (vs : Vector Int 32) : (State.init vs).mem = [] := rfl
@[simp] theorem init_bucketCount (vs : Vector Int 32) : (State.init vs).bucketCount = 256 := rfl
@[simp] theorem init_lines (vs : Vector Int 32) : (State.init vs).lines = [] := rfl
@[simp] theorem init_outcome (vs : Vector Int 32) : (State.init vs).outcome = none := rfl

theorem reg_init (vs : Vector Int 32) : (State.init vs).reg i = wrap32 vs[i] := by
  simp [State.reg, State.init]

/-- The model's reset is `init` of 32 zeros (log 3). -/
theorem reset_eq_init : State.reset = State.init (Vector.replicate 32 0) := by
  simp [State.reset, State.init, Config.bucketCount]

end Sys2Proof.Machine
end

