-- ==== Sys2Proof/Laws/Memory.lean ====
section
/-! SUPPORT. The laws of the store: read after write, what a write leaves alone, the entry count, and
that every operation keeps the canonical form. -/

namespace Sys2Proof.Machine

/-! ## `put` and `find?` -/

@[simp] theorem Memory.find?_nil (a : Int) : Memory.find? [] a = none := rfl

theorem Memory.find?_put (m : Memory) (a : Int) (v : Byte) (b : Int) :
    (m.put a v).find? b = if b = a then some v else m.find? b := by
  induction m with
  | nil => simp [Memory.put, Memory.find?, eq_comm]
  | cons c m ih =>
    simp only [Memory.put]
    split
    · simp [Memory.find?, eq_comm]
    · split
      · rename_i h
        subst h
        simp only [Memory.find?]
        by_cases hb : c.1 = b
        · simp [hb]
        · simp [hb, Ne.symm hb]
      · rename_i h
        simp only [Memory.find?, ih]
        by_cases hc : c.1 = b
        · simp [hc, show b ≠ a by omega]
        · simp [hc]

theorem Memory.find?_put_same (m : Memory) (a : Int) (v : Byte) : (m.put a v).find? a = some v := by
  simp [Memory.find?_put]

theorem Memory.find?_put_other (m : Memory) {a b : Int} (v : Byte) (h : b ≠ a) :
    (m.put a v).find? b = m.find? b := by
  simp [Memory.find?_put, h]

theorem Memory.get_put (m : Memory) (a : Int) (v : Byte) (b : Int) :
    (m.put a v).get b = if b = a then v else m.get b := by
  simp only [Memory.get, Memory.find?_put]
  split <;> rfl

/-! ## The canonical form -/

theorem Memory.mem_put {m : Memory} {a : Int} {v : Byte} {c : Cell} (h : c ∈ m.put a v) :
    c = (a, v) ∨ c ∈ m := by
  induction m with
  | nil => simpa [Memory.put] using h
  | cons d m ih =>
    simp only [Memory.put] at h
    split at h
    · simpa using h
    · split at h
      · rcases List.mem_cons.mp h with h | h <;> simp [h]
      · rcases List.mem_cons.mp h with h | h
        · simp [h]
        · rcases ih h with h | h <;> simp [h]

theorem Memory.wf_put {m : Memory} (a : Int) (v : Byte) (h : m.wf) : (m.put a v).wf := by
  induction m with
  | nil => simp [Memory.put]
  | cons c m ih =>
    obtain ⟨hc, hm⟩ := List.pairwise_cons.mp h
    simp only [Memory.put]
    split
    · rename_i hac
      refine List.pairwise_cons.mpr ⟨fun d hd => ?_, h⟩
      rcases List.mem_cons.mp hd with rfl | hd
      · exact hac
      · exact lt_trans hac (hc d hd)
    · split
      · rename_i hac
        exact List.pairwise_cons.mpr ⟨fun d hd => by simpa [hac] using hc d hd, hm⟩
      · refine List.pairwise_cons.mpr ⟨fun d hd => ?_, ih hm⟩
        rcases Memory.mem_put hd with rfl | hd
        · simp only; omega
        · exact hc d hd

theorem Memory.wf_writeWord {m : Memory} (a : Int) (v : Word) (h : m.wf) : (m.writeWord a v).wf :=
  Memory.wf_put _ _ (Memory.wf_put _ _ (Memory.wf_put _ _ (Memory.wf_put _ _ h)))

theorem Memory.wf_writeByte {m : Memory} (a : Int) (v : Byte) (h : m.wf) : (m.writeByte a v).wf :=
  Memory.wf_put _ _ h

theorem reset_mem_wf : State.reset.mem.wf := List.Pairwise.nil

theorem Memory.find?_eq_none_of_lt {m : Memory} {a : Int} (h : ∀ c ∈ m, a < c.1) :
    m.find? a = none := by
  induction m with
  | nil => rfl
  | cons c m ih =>
    have hc := h c (by simp)
    simp only [Memory.find?, show ¬ c.1 = a by omega, if_false]
    exact ih (fun d hd => h d (by simp [hd]))

/-- Two stores in canonical form that hold the same at every location are the same data. -/
theorem Memory.ext {m n : Memory} (hm : m.wf) (hn : n.wf) (h : ∀ a, m.find? a = n.find? a) :
    m = n := by
  induction m generalizing n with
  | nil =>
    cases n with
    | nil => rfl
    | cons d n => simpa [Memory.find?] using h d.1
  | cons c m ih =>
    cases n with
    | nil => simpa [Memory.find?] using h c.1
    | cons d n =>
      obtain ⟨hc, hm'⟩ := List.pairwise_cons.mp hm
      obtain ⟨hd, hn'⟩ := List.pairwise_cons.mp hn
      have hcd : c.1 = d.1 := by
        rcases lt_trichotomy c.1 d.1 with hlt | heq | hgt
        · have h1 := h c.1
          rw [Memory.find?_eq_none_of_lt (m := d :: n)] at h1
          · simp [Memory.find?] at h1
          · intro e he
            rcases List.mem_cons.mp he with rfl | he
            · exact hlt
            · exact lt_trans hlt (hd e he)
        · exact heq
        · have h1 := h d.1
          rw [Memory.find?_eq_none_of_lt (m := c :: m)] at h1
          · simp [Memory.find?] at h1
          · intro e he
            rcases List.mem_cons.mp he with rfl | he
            · exact hgt
            · exact lt_trans hgt (hc e he)
      have hb : c.2 = d.2 := by
        have h1 := h c.1
        simpa [Memory.find?, hcd] using h1
      have heq : c = d := Prod.ext hcd hb
      subst heq
      congr 1
      refine ih hm' hn' fun a => ?_
      by_cases ha : c.1 = a
      · subst ha
        rw [Memory.find?_eq_none_of_lt hc, Memory.find?_eq_none_of_lt hd]
      · simpa [Memory.find?, ha] using h a

/-! ## The entry count -/

theorem Memory.size_put {m : Memory} (a : Int) (v : Byte) (h : m.wf) :
    (m.put a v).size = if (m.find? a).isSome then m.size else m.size + 1 := by
  induction m with
  | nil => rfl
  | cons c m ih =>
    obtain ⟨hc, hm⟩ := List.pairwise_cons.mp h
    have ih := ih hm
    simp only [Memory.size] at ih ⊢
    simp only [Memory.put]
    split
    · rename_i hac
      rw [Memory.find?_eq_none_of_lt (m := c :: m)]
      · rfl
      · intro e he
        rcases List.mem_cons.mp he with rfl | he
        · exact hac
        · exact lt_trans hac (hc e he)
    · split
      · rename_i hac
        simp [Memory.find?, hac]
      · rename_i hac
        simp only [List.length_cons, ih, Memory.find?, show ¬ c.1 = a by omega, if_false]
        split <;> rfl

/-! ## Word access -/

theorem Memory.find?_writeWord (m : Memory) (a : Int) (v : Word) (b : Int) :
    (m.writeWord a v).find? b =
      if b = a + 3 then some (v.extractLsb' 24 8)
      else if b = a + 2 then some (v.extractLsb' 16 8)
      else if b = a + 1 then some (v.extractLsb' 8 8)
      else if b = a then some (v.extractLsb' 0 8) else m.find? b := by
  simp [Memory.writeWord, Memory.find?_put]

theorem Memory.find?_writeByte (m : Memory) (a : Int) (v : Byte) (b : Int) :
    (m.writeByte a v).find? b = if b = a then some v else m.find? b :=
  Memory.find?_put m a v b

theorem word_of_bytes (v : Word) :
    v.extractLsb' 24 8 ++ v.extractLsb' 16 8 ++ v.extractLsb' 8 8 ++ v.extractLsb' 0 8 = v := by
  ext i hi
  simp only [BitVec.getElem_append, BitVec.getElem_extractLsb']
  split
  · simp [BitVec.getLsbD_eq_getElem hi]
  · split
    · simp [show 8 + (i - 8) = i by omega, BitVec.getLsbD_eq_getElem hi]
    · split
      · simp [show 16 + (i - 8 - 8) = i by omega, BitVec.getLsbD_eq_getElem hi]
      · simp [show 24 + (i - 8 - 8 - 8) = i by omega, BitVec.getLsbD_eq_getElem hi]

/-- A word read back where it was written is the word. -/
theorem Memory.readWord_writeWord (m : Memory) (a : Int) (v : Word) :
    (m.writeWord a v).readWord a = v := by
  simp only [Memory.readWord, Memory.get, Memory.find?_writeWord]
  simpa using word_of_bytes v

theorem Memory.mem_writeWord {m : Memory} {a : Int} {v : Word} {c : Cell}
    (h : c ∈ m.writeWord a v) : (a ≤ c.1 ∧ c.1 ≤ a + 3) ∨ c ∈ m := by
  simp only [Memory.writeWord] at h
  rcases Memory.mem_put h with rfl | h
  · left; simp
  rcases Memory.mem_put h with rfl | h
  · left; simp
  rcases Memory.mem_put h with rfl | h
  · left; simp
  rcases Memory.mem_put h with rfl | h
  · left; simp
  · exact .inr h

end Sys2Proof.Machine
end

