-- ==== Sys2Proof/Laws/Ops.lean ====
section
/-! SUPPORT. What each shared operation can do, said once: how a step ends, the common steps of each
category, one line through the block, and one step of the machine. -/

namespace Sys2Proof.Machine

/-! ## How a step ends -/

theorem returnOk_eq (s : State) :
    returnOk s = .next ((s.setReg 0 0).returning .ok) := rfl

theorem skip_eq (s : State) : skip s = .next (s.returning .skipped) := rfl

theorem raise_eq (f : Fault) : raise f = .fault f := rfl

/-- A register write that ends the step is the whole effect `WritesRegister` describes. -/
theorem returnOk_setReg (s : State) (rd : Reg) (v : Word) :
    ∃ t, returnOk (s.setReg rd v) = .next t ∧ WritesRegister s t rd v := by
  refine ⟨_, rfl, ⟨fun h => ?_, ?_, fun r hr h0 => ?_, fun _ => rfl, rfl, rfl, rfl, rfl⟩⟩
  · simp [reg_setReg, Ne.symm h]
  · simp
  · simp [reg_setReg, Ne.symm hr, Ne.symm h0]

/-! ## The common steps -/

theorem execR_next (f : Word → Word → Word) (rd rs1 rs2 : Reg) (s : State) :
    ∃ t, execR f rd rs1 rs2 s = .next t ∧ WritesRegister s t rd (f (s.reg rs1) (s.reg rs2)) :=
  returnOk_setReg s rd _

theorem execI_next (f : Word → Word → Word) (rd rs1 : Reg) (imm : Int) (s : State) :
    ∃ t, execI f rd rs1 imm s = .next t ∧ WritesRegister s t rd (f (s.reg rs1) (immWord imm)) :=
  returnOk_setReg s rd _

theorem execLoad_next (n : Nat) (read : Memory → Int → Word) (rd : Reg) (off : Int) (rs2 : Reg)
    (s : State) (h : AccessInRange (effAddr rs2 off s) n) :
    ∃ t, execLoad n read rd off rs2 s = .next t ∧
      WritesRegister s t rd (read s.mem (effAddr rs2 off s)) := by
  rw [execLoad, if_pos h]
  exact returnOk_setReg s rd _

theorem execLoad_fault (n : Nat) (read : Memory → Int → Word) (rd : Reg) (off : Int) (rs2 : Reg)
    (s : State) (h : ¬ AccessInRange (effAddr rs2 off s) n) :
    execLoad n read rd off rs2 s = .fault .addressOutOfRange := by
  rw [execLoad, if_neg h, raise_eq]

theorem execStore_next (n : Nat) (write : Memory → Int → Memory) (off : Int) (rs2 : Reg)
    (s : State) (h : AccessInRange (effAddr rs2 off s) n) :
    execStore n write off rs2 s =
      .next (((s.withMem (write s.mem (effAddr rs2 off s))).setReg 0 0).returning .ok) := by
  rw [execStore, if_pos h, returnOk_eq]

theorem execStore_fault (n : Nat) (write : Memory → Int → Memory) (off : Int) (rs2 : Reg)
    (s : State) (h : ¬ AccessInRange (effAddr rs2 off s) n) :
    execStore n write off rs2 s = .fault .addressOutOfRange := by
  rw [execStore, if_neg h, raise_eq]

/-! ## The instructions -/

theorem exec_lw (rd : Reg) (off : Int) (rs2 : Reg) (s : State) :
    exec (.lw rd off rs2) s = execLoad 4 Memory.readWord rd off rs2 s := rfl

theorem exec_lb (rd : Reg) (off : Int) (rs2 : Reg) (s : State) :
    exec (.lb rd off rs2) s = execLoad 1 (fun m a => sext32 (m.readByte a)) rd off rs2 s := rfl

theorem exec_sw (rd : Reg) (off : Int) (rs2 : Reg) (s : State) :
    exec (.sw rd off rs2) s = execStore 4 (fun m a => m.writeWord a (s.reg rd)) off rs2 s := rfl

theorem exec_sb (r : Reg) (off : Int) (rs2 : Reg) (s : State) :
    exec (.sb r off rs2) s =
      execStore 1 (fun m a => m.writeByte a ((s.reg rs2).extractLsb' 0 8)) off rs2 s := rfl

/-- Where a load answers a next state, it is the register write of what was read. -/
theorem execLoad_eq_next {n : Nat} {read : Memory → Int → Word} {rd rs2 : Reg} {off : Int}
    {s t : State} (h : execLoad n read rd off rs2 s = .next t) :
    AccessInRange (effAddr rs2 off s) n ∧
      t = ((s.setReg rd (read s.mem (effAddr rs2 off s))).setReg 0 0).returning .ok := by
  rw [execLoad] at h
  split at h
  · rename_i hr
    exact ⟨hr, (Host.Outcome.next.inj h).symm⟩
  · exact nomatch h

/-- Where a store answers a next state, it is the write of the store. -/
theorem execStore_eq_next {n : Nat} {write : Memory → Int → Memory} {rs2 : Reg} {off : Int}
    {s t : State} (h : execStore n write off rs2 s = .next t) :
    AccessInRange (effAddr rs2 off s) n ∧
      t = ((s.withMem (write s.mem (effAddr rs2 off s))).setReg 0 0).returning .ok := by
  rw [execStore] at h
  split at h
  · rename_i hr
    exact ⟨hr, (Host.Outcome.next.inj h).symm⟩
  · exact nomatch h

/-- Everything an instruction that answers a next state can have done: a write of one register, or a
word or a byte stored inside the address range. -/
theorem exec_next_cases {i : Instr} {s t : State} (h : exec i s = .next t) :
    (∃ rd v, writes i = [rd] ∧ t = ((s.setReg rd v).setReg 0 0).returning .ok) ∨
    (∃ rd off rs2, i = .sw rd off rs2 ∧ AccessInRange (effAddr rs2 off s) 4 ∧
      t = ((s.withMem (s.mem.writeWord (effAddr rs2 off s) (s.reg rd))).setReg 0 0).returning .ok) ∨
    (∃ r off rs2, i = .sb r off rs2 ∧ AccessInRange (effAddr rs2 off s) 1 ∧
      t = ((s.withMem (s.mem.writeByte (effAddr rs2 off s)
        ((s.reg rs2).extractLsb' 0 8))).setReg 0 0).returning .ok) := by
  cases i with
  | lw rd off rs2 => rw [exec_lw] at h; exact .inl ⟨rd, _, rfl, (execLoad_eq_next h).2⟩
  | lb rd off rs2 => rw [exec_lb] at h; exact .inl ⟨rd, _, rfl, (execLoad_eq_next h).2⟩
  | sw rd off rs2 => rw [exec_sw] at h; exact .inr (.inl ⟨rd, off, rs2, rfl, execStore_eq_next h⟩)
  | sb r off rs2 => rw [exec_sb] at h; exact .inr (.inr ⟨r, off, rs2, rfl, execStore_eq_next h⟩)
  | _ => exact .inl ⟨_, _, rfl, (Host.Outcome.next.inj h).symm⟩

/-- An instruction that does not answer a next state is a memory access outside the range. -/
theorem exec_not_next {i : Instr} {s : State} (h : ∀ t, exec i s ≠ .next t) :
    exec i s = .fault .addressOutOfRange ∧ (writes i = [] ∨ ∃ rd off rs2, i = .lw rd off rs2 ∨
      i = .lb rd off rs2) := by
  cases i with
  | lw rd off rs2 =>
    simp only [exec_lw] at h ⊢
    refine ⟨execLoad_fault _ _ _ _ _ _ fun hr => ?_, .inr ⟨rd, off, rs2, .inl rfl⟩⟩
    exact h _ (execLoad_next _ _ _ _ _ _ hr).choose_spec.1
  | lb rd off rs2 =>
    simp only [exec_lb] at h ⊢
    refine ⟨execLoad_fault _ _ _ _ _ _ fun hr => ?_, .inr ⟨rd, off, rs2, .inr rfl⟩⟩
    exact h _ (execLoad_next _ _ _ _ _ _ hr).choose_spec.1
  | sw rd off rs2 =>
    simp only [exec_sw] at h ⊢
    exact ⟨execStore_fault _ _ _ _ _ fun hr => h _ (execStore_next _ _ _ _ _ hr), .inl rfl⟩
  | sb r off rs2 =>
    simp only [exec_sb] at h ⊢
    exact ⟨execStore_fault _ _ _ _ _ fun hr => h _ (execStore_next _ _ _ _ _ hr), .inl rfl⟩
  | _ => exact absurd rfl (h _)

/-! ## One line, one step -/

theorem execLine_instr {l : Line} {i : Instr} (s : State) (h : decode l = .instr i) :
    execLine l s = exec i s := by
  simp [execLine, h]

theorem execLine_skipped {l : Line} (s : State) (h : decode l = .skipped) :
    execLine l s = .next (s.returning .skipped) := by
  simp [execLine, h, skip_eq]

theorem execLine_error {l : Line} {e : DecodeError} (s : State) (h : decode l = .error e) :
    execLine l s = .fault (Fault.ofDecodeError e) := by
  simp [execLine, h, raise_eq]

theorem step_nil {s : State} (h : s.lines = []) : step s = .next s := by
  simp [step, runStep, h]

theorem step_cons {s : State} {l : Line} {rest : List Line} (h : s.lines = l :: rest) :
    step s = execLine l (s.withLines rest) := by
  simp [step, runStep, h]

/-- Everything a step that answers a next state can do. -/
theorem step_next_cases {s t : State} (h : step s = .next t) :
    (s.lines = [] ∧ t = s) ∨
    (∃ l rest, s.lines = l :: rest ∧ decode l = .skipped ∧
      t = (s.withLines rest).returning .skipped) ∨
    (∃ l rest i, s.lines = l :: rest ∧ decode l = .instr i ∧
      exec i (s.withLines rest) = .next t) := by
  cases hl : s.lines with
  | nil =>
    rw [step_nil hl] at h
    exact .inl ⟨rfl, by injection h with h; exact h.symm⟩
  | cons l rest =>
    rw [step_cons hl] at h
    cases hd : decode l with
    | instr i => exact .inr (.inr ⟨l, rest, i, rfl, hd, by rwa [execLine_instr _ hd] at h⟩)
    | skipped =>
      rw [execLine_skipped _ hd] at h
      exact .inr (.inl ⟨l, rest, rfl, hd, by injection h with h; exact h.symm⟩)
    | error e => rw [execLine_error _ hd] at h; exact nomatch h

end Sys2Proof.Machine
end

