-- ==== Sys2Proof/Laws/PerInstr.lean ====
section
/-! SUPPORT. Statements for all instructions, one lemma per constructor: the decoded record of a
well-formed instruction stands for that instruction, so the record drops nothing
(30_encoding.md R67 to R69). -/

namespace Sys2Proof.Laws.RecordRoundTrip

/-- Reading the record of a well-formed instruction gives the instruction back. -/
def Statement (i : Instr) : Prop := i.wf = true → i.record.instr? = some i

theorem s32_wrap32 {n : Int} (h : immInRange n = true) : s32 (wrap32 n) = n := by
  have h := immInRange_iff.mp h
  exact BitVec.toInt_ofInt_eq_self (by omega) (by omega) (by omega)

theorem toFin_regField (r : Reg) : (regField r).toFin = r := rfl

theorem recordR (op : ROp) (code : BitVec 4) (rd rs1 rs2 : Reg)
    (h : classOfCodes 0 code = .rType op) :
    (Sys2Proof.recordR code rd rs1 rs2).instr? = some (op.instr rd rs1 rs2) := by
  simp only [Record.instr?, Sys2Proof.recordR, h, toFin_regField, if_true]

theorem recordI (op : IOp) (code : BitVec 4) (rd rs1 : Reg) (imm : Int)
    (h : classOfCodes 1 code = .iType op) (hi : immInRange imm = true) :
    (Sys2Proof.recordI code rd rs1 imm).instr? = some (op.instr rd rs1 imm) := by
  simp only [Record.instr?, Sys2Proof.recordI, h, toFin_regField, s32_wrap32 hi, if_true]

theorem recordMem (op : MemOp) (code : BitVec 4) (rd : Reg) (off : Int) (rs2 : Reg)
    (h : classOfCodes 2 code = .memType op) (hi : immInRange off = true) :
    (Sys2Proof.recordMem code rd off rs2).instr? = some (op.instr rd off rs2) := by
  simp only [Record.instr?, Sys2Proof.recordMem, h, toFin_regField, s32_wrap32 hi, if_true]

theorem recordU (op : UOp) (code : BitVec 4) (rd : Reg) (imm : Int)
    (h : classOfCodes 3 code = .uType op) (hi : immInRange imm = true) :
    (Sys2Proof.recordU code rd imm).instr? = some (op.instr rd imm) := by
  simp only [Record.instr?, Sys2Proof.recordU, h, toFin_regField, s32_wrap32 hi, and_self, if_true]

theorem add (rd rs1 rs2 : Reg) : Statement (.add rd rs1 rs2) := fun _ => recordR .add 0 _ _ _ rfl
theorem sub (rd rs1 rs2 : Reg) : Statement (.sub rd rs1 rs2) := fun _ => recordR .sub 1 _ _ _ rfl
theorem and (rd rs1 rs2 : Reg) : Statement (.and rd rs1 rs2) := fun _ => recordR .and 2 _ _ _ rfl
theorem or (rd rs1 rs2 : Reg) : Statement (.or rd rs1 rs2) := fun _ => recordR .or 3 _ _ _ rfl
theorem xor (rd rs1 rs2 : Reg) : Statement (.xor rd rs1 rs2) := fun _ => recordR .xor 4 _ _ _ rfl
theorem nor (rd rs1 rs2 : Reg) : Statement (.nor rd rs1 rs2) := fun _ => recordR .nor 5 _ _ _ rfl
theorem slt (rd rs1 rs2 : Reg) : Statement (.slt rd rs1 rs2) := fun _ => recordR .slt 6 _ _ _ rfl
theorem sll (rd rs1 rs2 : Reg) : Statement (.sll rd rs1 rs2) := fun _ => recordR .sll 7 _ _ _ rfl
theorem sra (rd rs1 rs2 : Reg) : Statement (.sra rd rs1 rs2) := fun _ => recordR .sra 8 _ _ _ rfl
theorem addi (rd rs1 : Reg) (imm : Int) : Statement (.addi rd rs1 imm) := recordI .addi 0 _ _ _ rfl
theorem andi (rd rs1 : Reg) (imm : Int) : Statement (.andi rd rs1 imm) := recordI .andi 1 _ _ _ rfl
theorem ori (rd rs1 : Reg) (imm : Int) : Statement (.ori rd rs1 imm) := recordI .ori 2 _ _ _ rfl
theorem xori (rd rs1 : Reg) (imm : Int) : Statement (.xori rd rs1 imm) := recordI .xori 3 _ _ _ rfl
theorem slti (rd rs1 : Reg) (imm : Int) : Statement (.slti rd rs1 imm) := recordI .slti 4 _ _ _ rfl
theorem lw (rd : Reg) (off : Int) (rs2 : Reg) : Statement (.lw rd off rs2) := recordMem .lw 0 _ _ _ rfl
theorem lb (rd : Reg) (off : Int) (rs2 : Reg) : Statement (.lb rd off rs2) := recordMem .lb 1 _ _ _ rfl
theorem sw (rd : Reg) (off : Int) (rs2 : Reg) : Statement (.sw rd off rs2) := recordMem .sw 2 _ _ _ rfl
theorem sb (rd : Reg) (off : Int) (rs2 : Reg) : Statement (.sb rd off rs2) := recordMem .sb 3 _ _ _ rfl
theorem lui (rd : Reg) (imm : Int) : Statement (.lui rd imm) := recordU .lui 0 _ _ rfl

end Sys2Proof.Laws.RecordRoundTrip
end

