-- ==== Sys2Proof/Tests/Slice0.lean ====
section
/-! SUPPORT. The model's own tests: what WellFormed refuses, lines decoded as the spec writes them,
one step of each instruction against the vectors of 95_test_vectors.md, and a witness for every
statement that has hypotheses. Expected results are the spec's, not the model's. -/

namespace Sys2Proof.Tests

open Sys2Proof Sys2Proof.Machine

/-! ## Helpers -/

/-- The reset state with some registers set. -/
def regsAt (rs : List (Reg × Int)) : State :=
  rs.foldl (fun s p => s.setReg p.1 (wrap32 p.2)) State.reset

/-- A check on the next state; false where the step stops. -/
def after (o : StepResult) (p : State → Bool) : Bool :=
  match o with
  | .next t => p t
  | _ => false

/-- The step stops with this fault. -/
def faults (o : StepResult) (f : Fault) : Bool :=
  match o with
  | .fault g => decide (g = f)
  | _ => false

/-- The state after `exec` has this value in a register and `x0` is 0. -/
def gives (i : Instr) (s : State) (r : Reg) (n : Int) : Bool :=
  after (exec i s) (fun t => s32 (t.reg r) == n && s32 (t.reg 0) == 0)

/-- The bytes at some addresses after `exec`, and the entry count. -/
def stores (i : Instr) (s : State) (cells : Memory) : Bool :=
  after (exec i s) (fun t => decide (t.mem = cells))

/-! ## WellFormed refuses every ill-formed field -/

theorem test_wf_imm_above : (Instr.addi 1 2 2147483648).wf = false := by decide
theorem test_wf_imm_below : (Instr.slti 1 2 (-2147483649)).wf = false := by decide
theorem test_wf_andi_above : (Instr.andi 1 2 4294967295).wf = false := by decide
theorem test_wf_ori_above : (Instr.ori 1 2 2147483648).wf = false := by decide
theorem test_wf_xori_below : (Instr.xori 1 2 (-2147483649)).wf = false := by decide
theorem test_wf_off_above : (Instr.lw 1 2147483648 2).wf = false := by decide
theorem test_wf_off_below : (Instr.sw 1 (-2147483649) 2).wf = false := by decide
theorem test_wf_lb_above : (Instr.lb 1 2147483648 2).wf = false := by decide
theorem test_wf_sb_below : (Instr.sb 1 (-2147483649) 2).wf = false := by decide
theorem test_wf_lui_above : (Instr.lui 1 2147483648).wf = false := by decide

/-! ## Decoding: one line for every constructor, in the formats of 30_encoding.md R59 to R62 -/

theorem test_decode_add : decode "add x3,x1,x2".toList = .instr (.add 3 1 2) := by decide
theorem test_decode_sub : decode "sub x31,x0,x30".toList = .instr (.sub 31 0 30) := by decide
theorem test_decode_and : decode "and x3,x1,x2".toList = .instr (.and 3 1 2) := by decide
theorem test_decode_or : decode "or x07,x1,x2".toList = .instr (.or 7 1 2) := by decide
theorem test_decode_xor : decode "xor x3,x1,x2".toList = .instr (.xor 3 1 2) := by decide
theorem test_decode_nor : decode "nor x10,x1,x9".toList = .instr (.nor 10 1 9) := by decide
theorem test_decode_slt : decode "slt x15,x13,x7".toList = .instr (.slt 15 13 7) := by decide
theorem test_decode_sll : decode "sll x12,x7,x11".toList = .instr (.sll 12 7 11) := by decide
theorem test_decode_sra : decode "sra x14, x13 ,x7".toList = .instr (.sra 14 13 7) := by decide
theorem test_decode_addi : decode "addi x2, x0, -3".toList = .instr (.addi 2 0 (-3)) := by decide
theorem test_decode_andi : decode "andi x1,x2,0xff".toList = .instr (.andi 1 2 255) := by decide
theorem test_decode_ori : decode "ori x1,x0,-0x1".toList = .instr (.ori 1 0 (-1)) := by decide
theorem test_decode_xori : decode "xori x16,x1,+7".toList = .instr (.xori 16 1 7) := by decide
theorem test_decode_slti :
    decode "slti x1,x2,-2147483648".toList = .instr (.slti 1 2 (-2147483648)) := by decide
theorem test_decode_lw : decode "lw x1, -4 ( x2 )".toList = .instr (.lw 1 (-4) 2) := by decide
theorem test_decode_lb : decode "lb x4,+7(x2)".toList = .instr (.lb 4 7 2) := by decide
theorem test_decode_sw : decode "sw x3,-8(x2)".toList = .instr (.sw 3 (-8) 2) := by decide
theorem test_decode_sb : decode "sb x7,0(x2)".toList = .instr (.sb 7 0 2) := by decide
theorem test_decode_lui : decode "lui x1,0x12345".toList = .instr (.lui 1 74565) := by decide

/-! V-I5 to V-I7, V-I9, V-I10. -/
theorem test_decode_nonnumeric :
    decode "addi x1,x2,x3".toList = .instr (.addi 1 2 0) ∧
    decode "addi x1,x2,abc".toList = .instr (.addi 1 2 0) ∧
    decode "addi x1,x2,".toList = .instr (.addi 1 2 0) := by decide
theorem test_decode_number_forms :
    decode "addi x1,x2,010".toList = .instr (.addi 1 2 10) ∧
    decode "addi x1,x2,-0x10".toList = .instr (.addi 1 2 (-16)) := by decide

/-! V-I11 to V-I20, V-M15, V-M22 to V-M27, V-D8 to V-D10. -/
theorem test_decode_bad_immediates :
    decode "addi x1,x2,12abc".toList = .error .invalidOperand ∧
    decode "addi x1,x2,0x80000000".toList = .error .invalidOperand ∧
    decode "addi x1,x2,2147483648".toList = .error .invalidOperand ∧
    decode "addi x1,x2,0X10".toList = .error .invalidOperand ∧
    decode "addi x1,x2,0x".toList = .error .invalidOperand ∧
    decode "addi x1,x2,0xg1".toList = .error .invalidOperand := by decide
theorem test_decode_bad_registers :
    decode "addi x32,x0,1".toList = .error .invalidOperand ∧
    decode "addi X1,x0,1".toList = .error .invalidOperand ∧
    decode "sb x99,1(x2)".toList = .error .invalidOperand ∧
    decode "lw x1,0(x32)".toList = .error .invalidOperand ∧
    decode "add x1,x2,x3#comment".toList = .error .invalidOperand := by decide
theorem test_decode_bad_offsets :
    decode "lw x1,0x10(x0)".toList = .error .invalidOperand ∧
    decode "lw x1,(x0)".toList = .error .invalidOperand := by decide
theorem test_decode_bad_shapes :
    decode "addi x1,x2".toList = .error .invalidInstruction ∧
    decode "addi x1,x2,3,4".toList = .error .invalidInstruction ∧
    decode "lw x1,0(x0)#c".toList = .error .invalidInstruction ∧
    decode "lw x1,0x0".toList = .error .invalidInstruction ∧
    decode "lw x1,0(x0),x2".toList = .error .invalidInstruction ∧
    decode "lui x1".toList = .error .invalidInstruction ∧
    decode "add".toList = .error .invalidInstruction ∧
    decode "add x99,x1".toList = .error .invalidInstruction := by decide

/-! V-D1 to V-D7. -/
theorem test_decode_skipped :
    decode "li x1,5".toList = .skipped ∧ decode "nop".toList = .skipped ∧
    decode "ADD x1,x2,x3".toList = .skipped ∧ decode [] = .skipped ∧
    decode "beq x1,x2,8".toList = .skipped ∧ decode "add\tx1,x2,x3".toList = .skipped ∧
    decode " add x1,x2,x3".toList = .skipped := by decide

/-! Records of the programs P1 to P3 (30_encoding.md R67, R68). -/
theorem test_record_add : (Instr.add 3 1 2).record = ⟨0, 0, 3, 1, 2, 0⟩ := by decide
theorem test_record_addi : (Instr.addi 2 0 (-3)).record = ⟨1, 0, 2, 0, 0, 0xfffffffd⟩ := by decide
theorem test_record_sb : (Instr.sb 7 0 2).record = ⟨2, 3, 7, 0, 2, 0⟩ := by decide
theorem test_record_lui : (Instr.lui 1 74565).record = ⟨3, 0, 1, 0, 0, 0x12345⟩ := by decide

/-! The encoder at the ends of its ranges, and a table word (`lui x1,1`, first character lowest). -/
theorem test_encode_lw : encode (.lw 31 (-2147483648) 0) = "lw x31,-2147483648(x0)".toList := by
  decide
theorem test_table_word : decodeTableWord 64 0x312c31782069756c = some (.lui 1 1) := by decide

/-! ## One step of each instruction -/

theorem test_add_wraps : gives (.add 3 1 2) (regsAt [(1, 2147483647), (2, 1)]) 3 (-2147483648) := by
  decide  -- V-R2
theorem test_add_same_register : gives (.add 1 1 1) (regsAt [(1, 3)]) 1 6 := by decide  -- V-R4
theorem test_sub : gives (.sub 3 1 2) (regsAt [(1, 5), (2, 7)]) 3 (-2) := by decide  -- V-R6
theorem test_sub_wraps : gives (.sub 3 1 2) (regsAt [(2, -2147483648)]) 3 (-2147483648) := by
  decide  -- V-R7
theorem test_and : gives (.and 3 1 2) (regsAt [(1, 0xF0F0), (2, 0x0FF0)]) 3 240 := by decide  -- V-R9
theorem test_or : gives (.or 3 1 2) (regsAt [(1, 0xF000), (2, 0xF)]) 3 61455 := by decide  -- V-R11
theorem test_xor : gives (.xor 3 1 2) (regsAt [(1, 0xFF), (2, 0x0F)]) 3 240 := by decide  -- V-R12
theorem test_nor : gives (.nor 3 1 2) (regsAt [(1, 0x0F), (2, 0xF0)]) 3 (-256) := by decide  -- V-R14
theorem test_slt_signed : gives (.slt 3 1 2) (regsAt [(1, -1), (2, 1)]) 3 1 := by decide  -- V-R16
theorem test_slt_equal : gives (.slt 3 1 2) (regsAt [(1, 4), (2, 4)]) 3 0 := by decide  -- V-R18
theorem test_sll_masks : gives (.sll 3 1 2) (regsAt [(1, 1), (2, 33)]) 3 2 := by decide  -- V-R20
theorem test_sll_negative_amount :
    gives (.sll 3 1 2) (regsAt [(1, 1), (2, -1)]) 3 (-2147483648) := by decide  -- V-R23
theorem test_sra_floor : gives (.sra 3 1 2) (regsAt [(1, -7), (2, 1)]) 3 (-4) := by decide  -- V-R27
theorem test_sra_amount_32 : gives (.sra 3 1 2) (regsAt [(1, -8), (2, 32)]) 3 (-8) := by
  decide  -- V-R32
theorem test_addi_wraps : gives (.addi 1 1 2147483647) (regsAt [(1, 1)]) 1 (-2147483648) := by
  decide  -- V-I3
theorem test_addi_reads_x0 :
    gives (.addi 1 0 1) (regsAt [(0, 7)]) 1 8 := by decide  -- V-X3, program P5
theorem test_andi : gives (.andi 1 2 (-16)) (regsAt [(2, 0x1234)]) 1 4656 := by decide  -- V-I22
theorem test_ori : gives (.ori 3 1 255) (regsAt [(1, 0x100)]) 3 511 := by decide  -- V-I24
theorem test_xori : gives (.xori 1 2 (-1)) (regsAt [(2, 5)]) 1 (-6) := by decide  -- V-I25
theorem test_slti : gives (.slti 1 2 0) (regsAt [(2, -5)]) 1 1 := by decide  -- V-I26
theorem test_slti_min : gives (.slti 1 2 (-2147483648)) (regsAt [(2, 2147483647)]) 1 0 := by
  decide  -- V-I28
theorem test_lui : gives (.lui 1 0x12345) State.reset 1 305418240 := by decide  -- V-U2
theorem test_lui_loses_high_bits : gives (.lui 1 0x7fffffff) State.reset 1 (-4096) := by
  decide  -- V-U7

theorem test_lw :
    gives (.lw 5 4 2) ((regsAt [(2, 0x100)]).withMem
      [(0x104, 0x78), (0x105, 0x56), (0x106, 0x34), (0x107, 0x12)]) 5 305419896 := by decide  -- V-M8
theorem test_lw_base_is_destination :
    gives (.lw 1 0 1) ((regsAt [(1, 8)]).withMem [(8, 0x2a)]) 1 42 := by decide  -- V-M18
theorem test_lb_negative : gives (.lb 1 5 0) (State.reset.withMem [(5, 0x80)]) 1 (-128) := by
  decide  -- V-M11
theorem test_lb_last_address : gives (.lb 1 (-2147483648) 2)
    ((regsAt [(2, 2147483647)]).withMem [(-1, 7)]) 1 7 := by decide  -- V-A9
theorem test_sw : stores (.sw 1 0 2) (regsAt [(1, 7), (2, -4)])
    [(-4, 7), (-3, 0), (-2, 0), (-1, 0)] := by decide  -- V-M7
theorem test_sw_zero_adds_entries : after (exec (.sw 0 0 0) State.reset)
    (fun t => size t == 4) := by decide  -- V-M4
theorem test_sb_stores_base : stores (.sb 7 0 2) (regsAt [(2, 255), (7, 1)]) [(0xFF, 0xff)] := by
  decide  -- V-M13
theorem test_sb_offset : stores (.sb 1 1 2) (regsAt [(1, 0x99), (2, 0x1234)]) [(0x1235, 0x34)] := by
  decide  -- V-M14

/-! The entry-count run of 95_test_vectors.md, its step 3: an overlapping store adds two locations. -/
theorem test_overlapping_store : after (exec (.sw 1 2 0) ((regsAt [(1, 5)]).withMem
    [(0, 0xf7), (1, 0xff), (2, 0xff), (3, 0xff)])) (fun t => size t == 6 &&
      decide (t.mem.readWord 0 = 0x0005FFF7)) := by decide

/-! V-A1 to V-A6: the ends of the address range. -/
theorem test_range_lw : faults (exec (.lw 1 0 2) (regsAt [(2, 2147483647)])) .addressOutOfRange ∧
    gives (.lw 1 0 2) (regsAt [(2, 2147483644)]) 1 0 := by decide
theorem test_range_lb : faults (exec (.lb 1 0 2) (regsAt [(2, -2147483648)])) .addressOutOfRange ∧
    gives (.lb 1 1 2) (regsAt [(2, -2147483648)]) 1 0 := by decide

/-! Steps: a skipped line leaves a non-zero `x0` alone (V-X1), a malformed line faults (V-X2), a table
word runs next after reset. -/
theorem test_step_skips : after (step ((regsAt [(0, 7)]).withNextLine "li x1,5".toList))
    (fun t => s32 (t.reg 0) == 7 && decide (t.outcome = some .skipped) && t.lines.isEmpty) := by decide
theorem test_step_faults :
    faults (step ((regsAt [(0, 7)]).withNextLine "addi x1,x0,1,2".toList)) .invalidInstruction := by
  decide
theorem test_step_fetch_word :
    after (step (State.reset.withFetchWord 64 0x312c31782069756c)) (fun t => s32 (t.reg 1) == 4096) := by
  decide  -- V-U1

/-! ## Witnesses: concrete states and operands that meet the hypotheses of each statement -/

theorem witness_slt_clauses :
    s32 ((regsAt [(1, 3), (2, 4)]).reg 1) < s32 ((regsAt [(1, 3), (2, 4)]).reg 2) ∧
    s32 ((regsAt [(1, 4), (2, 4)]).reg 2) ≤ s32 ((regsAt [(1, 4), (2, 4)]).reg 1) := by decide
theorem witness_slti : (Instr.slti 1 2 (-2147483648)).wf = true ∧ (Instr.slti 1 2 0).wf = true ∧
    s32 ((regsAt [(2, -1)]).reg 2) < 0 ∧ 0 ≤ s32 ((regsAt []).reg 2) := by decide

theorem witness_load_word_low : (-2147483647 : Int) = s32 ((regsAt [(2, -2147483648)]).reg 2) + 1 ∧
    -(2 ^ 31 - 1) ≤ (-2147483647 : Int) ∧ (-2147483647 : Int) + 3 ≤ 2 ^ 31 - 1 := by decide
theorem witness_load_word_high : (2147483644 : Int) = s32 ((regsAt [(2, 2147483647)]).reg 2) + -3 ∧
    -(2 ^ 31 - 1) ≤ (2147483644 : Int) ∧ (2147483644 : Int) + 3 ≤ 2 ^ 31 - 1 := by decide
theorem witness_word_out_of_range :
    (-2147483648 : Int) = s32 ((regsAt [(2, -2147483648)]).reg 2) + 0 ∧
    (-2147483648 : Int) < -(2 ^ 31 - 1) ∧
    (2147483645 : Int) = s32 ((regsAt [(2, 2147483645)]).reg 2) + 0 ∧
    (2 ^ 31 - 1 : Int) < 2147483645 + 3 := by decide
theorem witness_byte_in_range :
    (-2147483647 : Int) = s32 ((regsAt [(2, -2147483648)]).reg 2) + 1 ∧
    -(2 ^ 31 - 1) ≤ (-2147483647 : Int) ∧ (-2147483647 : Int) ≤ 2 ^ 31 - 1 ∧
    (2147483647 : Int) = s32 ((regsAt [(2, 2147483647)]).reg 2) + 0 ∧
    -(2 ^ 31 - 1) ≤ (2147483647 : Int) ∧ (2147483647 : Int) ≤ 2 ^ 31 - 1 := by decide
theorem witness_byte_out_of_range :
    (-2147483648 : Int) = s32 ((regsAt [(2, -2147483648)]).reg 2) + 0 ∧
    (-2147483648 : Int) < -(2 ^ 31 - 1) ∧
    (2147483648 : Int) = s32 ((regsAt [(2, 2147483647)]).reg 2) + 1 ∧
    (2 ^ 31 - 1 : Int) < 2147483648 := by decide

theorem witness_sw_next_unwritten : State.reset.mem.wf ∧ ∃ t, exec (.sw 1 0 0) State.reset = .next t :=
  ⟨List.Pairwise.nil, _, rfl⟩
theorem witness_sw_next_written : ((State.reset.withMem [(2, 9)]).mem.wf) ∧
    ∃ t, exec (.sw 1 0 0) (State.reset.withMem [(2, 9)]) = .next t := ⟨by decide, _, rfl⟩
theorem witness_inv_with_store : ((regsAt [(1, 5)]).withMem [(-7, 0), (3, 9)]).Inv := by decide
theorem witness_written_before :
    (∃ t, exec (.sb 1 0 0) (State.reset.withMem [(3, 9)]) = .next t) ∧
    ((State.reset.withMem [(3, 9)]).mem.find? 3).isSome := ⟨⟨_, rfl⟩, by decide⟩
theorem witness_newly_written_by_sw : after (exec (.sw 1 0 0) State.reset)
    (fun t => (t.mem.find? 3).isSome) ∧ ¬ (State.reset.mem.find? 3).isSome := by decide
theorem witness_newly_written_by_sb : after (exec (.sb 1 9 0) State.reset)
    (fun t => (t.mem.find? 9).isSome) ∧ ¬ (State.reset.mem.find? 9).isSome := by decide
theorem witness_skipped_line : decode "nop".toList = .skipped ∧
    ∃ t, execLine "nop".toList State.reset = .next t := ⟨by decide, _, rfl⟩

theorem witness_store_then_load_base : (∃ t, exec (.sw 1 4 2) (regsAt [(2, 8)]) = .next t) ∧
    ((2 : Reg) ≠ 0 ∨ LaunchPremise (regsAt [(2, 8)])) := ⟨⟨_, rfl⟩, .inl (by decide)⟩
theorem witness_store_then_load_x0 : (∃ t, exec (.sw 1 4 0) State.reset = .next t) ∧
    ((0 : Reg) ≠ 0 ∨ LaunchPremise State.reset) := ⟨⟨_, rfl⟩, .inr rfl⟩
theorem witness_store_then_load_byte : (3 ≤ 3 ∧ 0 ≤ 3) ∧
    (∃ t, exec (.sw 1 2147483644 0) State.reset = .next t) ∧
    ((0 : Reg) ≠ 0 ∨ LaunchPremise State.reset) := ⟨by decide, ⟨_, rfl⟩, .inr rfl⟩

theorem witness_buckets : 0 < 256 ∧ (255 < 256) ∧ ∃ s : State,
    s.mem = [((-255 : Int), (1 : Byte)), (255, 2)].foldl (fun m p => Memory.put m p.1 p.2) [] ∧
    s.bucketCount = 256 :=
  ⟨by decide, by decide, State.reset.withMem [(-255, 1), (255, 2)], by decide, rfl⟩
theorem witness_bucket_count : (∃ t, step State.reset = .next t) ∧
    (∃ t, exec (.lui 1 1) State.reset = .next t) ∧
    exec (.lb 1 0 2) (regsAt [(2, -2147483648)]) = .fault .addressOutOfRange :=
  ⟨⟨_, rfl⟩, ⟨_, rfl⟩, rfl⟩
theorem witness_ok_step : (∃ t, exec (.addi 0 0 5) State.reset = .next t) ∧
    ∃ t, execLine "addi x0,x0,5".toList State.reset = .next t ∧ t.outcome = some .ok :=
  ⟨⟨_, rfl⟩, _, rfl, rfl⟩
theorem witness_named_registers_next :
    (regsAt [(1, 5), (9, 1)]).mem = (regsAt [(1, 5)]).mem ∧
    (∀ r ∈ reads (.addi 3 1 7), (regsAt [(1, 5), (9, 1)]).reg r = (regsAt [(1, 5)]).reg r) ∧
    (∃ t, exec (.addi 3 1 7) (regsAt [(1, 5), (9, 1)]) = .next t) ∧
    (9 : Reg) ∉ writes (.addi 3 1 7) ∧ (9 : Reg) ≠ 0 :=
  ⟨rfl, by decide, ⟨_, rfl⟩, by decide, by decide⟩
theorem witness_named_registers_fault :
    (∀ r ∈ reads (.sb 1 0 2), (regsAt [(2, -2147483648), (1, 1)]).reg r =
      (regsAt [(2, -2147483648)]).reg r) ∧
    exec (.sb 1 0 2) (regsAt [(2, -2147483648), (1, 1)]) = .fault .addressOutOfRange :=
  ⟨by decide, rfl⟩
theorem witness_launch_premise : LaunchPremise State.reset ∧
    ∃ t, step (State.reset.withNextLine "addi x0,x0,5".toList) = .next t := ⟨rfl, _, rfl⟩

theorem witness_not_a_mnemonic : "li".toList ∉ [ "add".toList, "sub".toList, "and".toList,
    "or".toList, "xor".toList, "nor".toList, "slt".toList, "sll".toList, "sra".toList,
    "addi".toList, "andi".toList, "ori".toList, "xori".toList, "slti".toList, "lw".toList,
    "lb".toList, "sw".toList, "sb".toList, "lui".toList ] := by decide
theorem witness_unknown_mnemonic : ' ' ∉ "li".toList ∧ classify "li".toList = .unknown ∧
    (State.reset.withNextLine ("li".toList ++ ' ' :: "x1,5".toList)).lines =
      ("li".toList ++ ' ' :: "x1,5".toList) :: [] ∧
    (State.reset.withNextLine "li".toList).lines = "li".toList :: [] := by decide
theorem witness_whitespace : ' ' ∉ "add".toList ∧
    Char.ofNat 0x0D ∈ [Char.ofNat 0x20, Char.ofNat 0x09, Char.ofNat 0x0A, Char.ofNat 0x0B,
      Char.ofNat 0x0C, Char.ofNat 0x0D] := by decide
theorem witness_not_whitespace : Char.ofNat 0x0E ∉ [Char.ofNat 0x20, Char.ofNat 0x09, Char.ofNat 0x0A,
    Char.ofNat 0x0B, Char.ofNat 0x0C, Char.ofNat 0x0D] := by decide
theorem witness_hex_tokens : "7fffffff".toList ≠ [] ∧ "7FFFffff".toList.all isHexDigit = true ∧
    hexVal "7FFFffff".toList ≤ 2 ^ 31 - 1 ∧ "g1".toList.all isHexDigit = false ∧
    2 ^ 31 - 1 < hexVal "80000000".toList := by decide
theorem witness_decimal_tokens : "2147483647".toList ≠ [] ∧
    "2147483647".toList.all isDecDigit = true ∧ decVal "2147483647".toList ≤ 2 ^ 31 - 1 ∧
    2 ^ 31 - 1 < decVal "2147483648".toList ∧ decVal "2147483648".toList ≤ 2 ^ 31 ∧
    2 ^ 31 < decVal "2147483649".toList := by decide
theorem witness_nonnumeric_tokens :
    (∀ c cs, "abc".toList = c :: cs → isDecDigit c = false) ∧
    "abc".toList.head? ≠ some '-' ∧ "abc".toList.head? ≠ some '+' := by
  refine ⟨fun c cs h => ?_, by decide, by decide⟩
  obtain rfl : 'a' = c := (List.cons.inj h).1
  decide
theorem witness_junk_tokens : isDecDigit '1' = true ∧ "2abc".toList.all isDecDigit = false ∧
    ¬ ('1' = '0' ∧ "2abc".toList.head? = some 'x') := by decide
theorem witness_token_errors : parseReg "x-1".toList = .error .invalidOperand ∧
    parseOff "".toList = .error .invalidOperand := ⟨rfl, rfl⟩
theorem witness_decodes : decode "lw x1,2147483647(x2)".toList = .instr (.lw 1 2147483647 2) := by
  decide
theorem witness_well_formed : (Instr.lui 31 2147483647).wf = true ∧
    (Instr.sb 31 (-2147483648) 0).wf = true := by decide
theorem witness_step_cases :
    (State.reset.withLines ["lui x1,1".toList]).lines = "lui x1,1".toList :: [] ∧
    decode "lui x1,1".toList = .instr (.lui 1 1) ∧ decode "nop".toList = .skipped ∧
    decode "lui x1".toList = .error .invalidInstruction ∧
    decode "lui x32,1".toList = .error .invalidOperand ∧
    decodeTableWord 64 0x312c31782069756c = some (.lui 1 1) ∧ State.reset.lines = [] := by decide
theorem witness_error_outcomes :
    (∃ t, stepText "lui x1".toList State.reset = (some .invalidInstruction, t)) ∧
    (∃ t, stepText "lui x32,1".toList State.reset = (some .invalidOperand, t)) ∧
    (∃ t, stepText "lb x1,0(x2)".toList (regsAt [(2, -2147483648)]) = (some .addressOutOfRange, t)) ∧
    (∃ t, stepText "nop".toList State.reset = (some .skipped, t)) ∧
    (∃ t, stepText "lui x1,1".toList State.reset = (some .ok, t)) :=
  ⟨⟨_, rfl⟩, ⟨_, rfl⟩, ⟨_, rfl⟩, ⟨_, rfl⟩, ⟨_, rfl⟩⟩
theorem witness_run_next : ∃ t, Host.Core.run Sys2Proof.core 2
    (State.reset.withLines ["nop".toList, "lui x1,1".toList, "nop".toList]) = .next t := ⟨_, rfl⟩
theorem witness_error_line_after_a_step : ∃ t, Host.Core.run Sys2Proof.core 1
    (State.reset.withLines ["nop".toList, "lui x1".toList, "nop".toList]) = .next t ∧
    t.lines = "lui x1".toList :: ["nop".toList] ∧
    decode "lui x1".toList = .error .invalidInstruction ∧
    decode "lui x32,1".toList = .error .invalidOperand ∧ decode "nop".toList = .skipped ∧
    ∀ u, step t ≠ .next u := by
  refine ⟨_, rfl, rfl, by decide, by decide, by decide, fun u h => ?_⟩
  cases h
theorem witness_range_error_line : ∃ t, Host.Core.run Sys2Proof.core 0
    ((regsAt [(2, -2147483648)]).withLines ["lb x1,0(x2)".toList]) = .next t ∧
    t.lines = "lb x1,0(x2)".toList :: [] ∧ decode "lb x1,0(x2)".toList = .instr (.lb 1 0 2) ∧
    exec (.lb 1 0 2) (t.withLines []) = .fault .addressOutOfRange := ⟨_, rfl, rfl, by decide, rfl⟩
theorem witness_invariant_step : (State.reset.withNextLine "sw x1,-4(x0)".toList).Inv ∧
    ∃ t, step (State.reset.withNextLine "sw x1,-4(x0)".toList) = .next t := ⟨by decide, _, rfl⟩
theorem witness_initial_values : -(2 ^ 31) ≤ (Vector.replicate 32 (-2147483648 : Int))[(31 : Reg)] ∧
    (Vector.replicate 32 (-2147483648 : Int))[(31 : Reg)] ≤ 2 ^ 31 - 1 := by decide
theorem witness_read_back : State.reset.mem.find? (-5) = none ∧ ((-1 : Int) < 0 ∨ 31 < (-1 : Int)) ∧
    ((32 : Int) < 0 ∨ 31 < (32 : Int)) := by decide

theorem witness_digit_values : "0123456789".toList[9]? = some '9' ∧
    "0123456789abcdef".toList[15]? = some 'f' ∧ "0123456789ABCDEF".toList[10]? = some 'A' := by decide
theorem witness_tokens_in_other_spellings : OperandToken "x07".toList ∧ OperandToken "+7".toList ∧
    OperandToken "-0xFf".toList ∧ OperandToken "x32".toList ∧ OperandToken [] := by
  simp [OperandToken]
theorem witness_base_tokens : OperandToken "+07".toList ∧ OperandToken "x002".toList ∧
    '(' ∉ "+07".toList ∧ ')' ∉ "+07".toList ∧ '(' ∉ "x002".toList ∧ ')' ∉ "x002".toList := by
  simp [OperandToken]

end Sys2Proof.Tests
end

section
/-! PROOF. The statements about the state (10_state.md): the written set of the store, the bucket
count, the reset of `x0`, the registers an instruction names, `init` and read-back. -/

namespace Sys2Proof.Machine

/-! ## The written set -/

theorem Memory.isSome_find?_iff_mem (m : Memory) (a : Int) :
    (m.find? a).isSome ↔ a ∈ m.map Prod.fst := by
  induction m with
  | nil => simp
  | cons c m ih =>
    simp only [Memory.find?, List.map_cons, List.mem_cons]
    split
    · next h => simp [h]
    · next h => simp [ih, Ne.symm h]

theorem Memory.nodup_addresses {m : Memory} (h : m.wf) : (m.map Prod.fst).Nodup :=
  List.pairwise_map.mpr (h.imp ne_of_lt)

theorem Memory.isSome_find?_put (m : Memory) (a : Int) (v : Byte) (b : Int) :
    ((m.put a v).find? b).isSome ↔ b = a ∨ (m.find? b).isSome := by
  rw [Memory.find?_put]
  split
  · next h => simp [h]
  · next h => simp [h]

theorem Memory.isSome_find?_writeByte (m : Memory) (a : Int) (v : Byte) (b : Int) :
    ((m.writeByte a v).find? b).isSome ↔ b = a ∨ (m.find? b).isSome :=
  m.isSome_find?_put a v b

theorem Memory.isSome_find?_writeWord (m : Memory) (a : Int) (v : Word) (b : Int) :
    ((m.writeWord a v).find? b).isSome ↔ (a ≤ b ∧ b ≤ a + 3) ∨ (m.find? b).isSome := by
  have hspan : a ≤ b ∧ b ≤ a + 3 ↔ b = a + 3 ∨ b = a + 2 ∨ b = a + 1 ∨ b = a := by omega
  simp only [Memory.writeWord, Memory.isSome_find?_put, hspan, or_assoc]

/-! ## How an instruction ends, and one line -/

/-- An instruction that answers a next state ends by `return OK`, after updates that keep the bucket
count and every register it does not write (10_state.md R10, R13). -/
theorem exec_next_returnOk {i : Instr} {s t : State} (h : exec i s = .next t) :
    ∃ u : State, t = (u.setReg 0 0).returning .ok ∧ u.bucketCount = s.bucketCount ∧
      ∀ r ∉ writes i, u.reg r = s.reg r := by
  obtain ⟨rd, v, hw, rfl⟩ | ⟨rd, off, rs2, rfl, -, rfl⟩ | ⟨r, off, rs2, rfl, -, rfl⟩ :=
    exec_next_cases h
  · refine ⟨s.setReg rd v, rfl, rfl, fun r hr => reg_setReg_other s rd r v ?_⟩
    simpa [hw] using hr
  · exact ⟨_, rfl, rfl, fun _ _ => rfl⟩
  · exact ⟨_, rfl, rfl, fun _ _ => rfl⟩

theorem exec_next_ok {i : Instr} {s t : State} (h : exec i s = .next t) :
    t.outcome = some .ok ∧ t.reg 0 = 0 := by
  obtain ⟨u, rfl, -, -⟩ := exec_next_returnOk h
  exact ⟨rfl, by simp⟩

theorem exec_next_bucketCount {i : Instr} {s t : State} (h : exec i s = .next t) :
    t.bucketCount = s.bucketCount := by
  obtain ⟨u, rfl, hb, -⟩ := exec_next_returnOk h
  exact hb

theorem exec_next_reg_of_not_written {i : Instr} {s t : State} (h : exec i s = .next t) {r : Reg}
    (hr : r ∉ writes i) (h0 : r ≠ 0) : t.reg r = s.reg r := by
  obtain ⟨u, rfl, -, hu⟩ := exec_next_returnOk h
  rw [reg_returning, reg_setReg_other _ _ _ _ h0, hu r hr]

/-- Everything a line that answers a next state can have done. -/
theorem execLine_next_cases {l : Line} {s t : State} (h : execLine l s = .next t) :
    (decode l = .skipped ∧ t = s.returning .skipped) ∨
    (∃ i, decode l = .instr i ∧ exec i s = .next t) := by
  cases hd : decode l with
  | instr i => exact .inr ⟨i, rfl, by rwa [execLine_instr s hd] at h⟩
  | skipped =>
    rw [execLine_skipped s hd] at h
    exact .inl ⟨rfl, (Host.Outcome.next.inj h).symm⟩
  | error e => rw [execLine_error s hd] at h; exact nomatch h

/-! ## The bucket count is not observed -/

/-- The state with another bucket count (10_state.md R22). -/
def State.withBucketCount (s : State) (n : Nat) : State := { s with bucketCount := n }

/-- The answer of a step with its next state, where it has one, changed by `g`. -/
def StepResult.mapNext (g : State → State) : StepResult → StepResult
  | .next t => .next (g t)
  | .fault f => .fault f
  | .refused r => .refused r

theorem execLoad_withBucketCount (n : Nat) (read : Memory → Int → Word) (rd : Reg) (off : Int)
    (rs2 : Reg) (s : State) (k : Nat) :
    execLoad n read rd off rs2 (s.withBucketCount k) =
      StepResult.mapNext (·.withBucketCount k) (execLoad n read rd off rs2 s) := by
  rw [execLoad, execLoad, apply_ite (StepResult.mapNext _)]
  rfl

theorem execStore_withBucketCount (n : Nat) (write : Memory → Int → Memory) (off : Int) (rs2 : Reg)
    (s : State) (k : Nat) :
    execStore n write off rs2 (s.withBucketCount k) =
      StepResult.mapNext (·.withBucketCount k) (execStore n write off rs2 s) := by
  rw [execStore, execStore, apply_ite (StepResult.mapNext _)]
  rfl

/-- Changing the bucket count before an instruction is changing it after: nothing the instruction
does depends on it. -/
theorem exec_withBucketCount (i : Instr) (s : State) (k : Nat) :
    exec i (s.withBucketCount k) = StepResult.mapNext (·.withBucketCount k) (exec i s) := by
  cases i with
  | lw rd off rs2 => exact execLoad_withBucketCount 4 Memory.readWord rd off rs2 s k
  | lb rd off rs2 =>
    exact execLoad_withBucketCount 1 (fun m a => sext32 (m.readByte a)) rd off rs2 s k
  | sw rd off rs2 =>
    exact execStore_withBucketCount 4 (fun m a => m.writeWord a (s.reg rd)) off rs2 s k
  | sb r off rs2 =>
    exact execStore_withBucketCount 1 (fun m a => m.writeByte a ((s.reg rs2).extractLsb' 0 8))
      off rs2 s k
  | _ => rfl

theorem step_next_bucketCount {s t : State} (h : step s = .next t) :
    t.bucketCount = s.bucketCount := by
  obtain ⟨-, rfl⟩ | ⟨l, rest, -, -, rfl⟩ | ⟨l, rest, i, -, -, he⟩ := step_next_cases h
  · rfl
  · rfl
  · exact (exec_next_bucketCount he).trans (withLines_bucketCount s rest)

/-! ## The registers an instruction reads and writes -/

/-- Two answers of a step that cannot be told apart by the registers `ws` and the store: next states
that agree on those, or the same stop. -/
def SameAnswer (ws : List Reg) : StepResult → StepResult → Prop
  | .next t, .next t' => (∀ r ∈ ws, t.reg r = t'.reg r) ∧ t.mem = t'.mem
  | .fault f, .fault f' => f = f'
  | .refused q, .refused q' => q = q'
  | _, _ => False

theorem SameAnswer.next {ws : List Reg} {o' : StepResult} {t : State}
    (h : SameAnswer ws (.next t) o') :
    ∃ t', o' = .next t' ∧ (∀ r ∈ ws, t.reg r = t'.reg r) ∧ t.mem = t'.mem := by
  cases o' with
  | next t' => exact ⟨t', rfl, h⟩
  | fault | refused => exact h.elim

theorem SameAnswer.fault {ws : List Reg} {o' : StepResult} {f : Fault}
    (h : SameAnswer ws (.fault f) o') : o' = .fault f := by
  cases o' with
  | fault f' => exact congrArg _ (Eq.symm h)
  | next | refused => exact h.elim

section
variable {s s' : State} (hm : s.mem = s'.mem)
include hm

theorem returnOk_setReg_sameAnswer (rd : Reg) (v : Word) :
    SameAnswer [rd] (returnOk (s.setReg rd v)) (returnOk (s'.setReg rd v)) :=
  ⟨by simp [reg_setReg], hm⟩

theorem execR_sameAnswer (f : Word → Word → Word) {rd rs1 rs2 : Reg}
    (hr : ∀ r ∈ [rs1, rs2], s.reg r = s'.reg r) :
    SameAnswer [rd] (execR f rd rs1 rs2 s) (execR f rd rs1 rs2 s') := by
  simp only [execR, hr rs1 (by simp), hr rs2 (by simp)]
  exact returnOk_setReg_sameAnswer hm rd _

theorem execI_sameAnswer (f : Word → Word → Word) {rd rs1 : Reg} {imm : Int}
    (hr : ∀ r ∈ [rs1], s.reg r = s'.reg r) :
    SameAnswer [rd] (execI f rd rs1 imm s) (execI f rd rs1 imm s') := by
  simp only [execI, hr rs1 (by simp)]
  exact returnOk_setReg_sameAnswer hm rd _

theorem execLoad_sameAnswer (n : Nat) (read : Memory → Int → Word) {rd rs2 : Reg} {off : Int}
    (hr : ∀ r ∈ [rs2], s.reg r = s'.reg r) :
    SameAnswer [rd] (execLoad n read rd off rs2 s) (execLoad n read rd off rs2 s') := by
  have ha : effAddr rs2 off s = effAddr rs2 off s' := by rw [effAddr, effAddr, hr rs2 (by simp)]
  rw [execLoad, execLoad, ha, hm]
  split
  · exact returnOk_setReg_sameAnswer hm rd _
  · rfl

theorem execStore_sameAnswer {n : Nat} {write : Memory → Int → Memory} {rs2 : Reg} {off : Int}
    (hr : s.reg rs2 = s'.reg rs2) :
    SameAnswer [] (execStore n write off rs2 s) (execStore n write off rs2 s') := by
  have ha : effAddr rs2 off s = effAddr rs2 off s' := by rw [effAddr, effAddr, hr]
  rw [execStore, execStore, ha, hm]
  split
  · exact ⟨by simp, rfl⟩
  · rfl

/-- An instruction on two states with one store, equal in the registers it reads, answers alike. -/
theorem exec_sameAnswer {i : Instr} (hr : ∀ r ∈ reads i, s.reg r = s'.reg r) :
    SameAnswer (writes i) (exec i s) (exec i s') := by
  cases i with
  | add => exact execR_sameAnswer hm aluAdd hr
  | sub => exact execR_sameAnswer hm aluSub hr
  | and => exact execR_sameAnswer hm aluAnd hr
  | or => exact execR_sameAnswer hm aluOr hr
  | xor => exact execR_sameAnswer hm aluXor hr
  | nor => exact execR_sameAnswer hm aluNor hr
  | slt => exact execR_sameAnswer hm lessThanSigned hr
  | sll => exact execR_sameAnswer hm aluSll hr
  | sra => exact execR_sameAnswer hm aluSra hr
  | addi => exact execI_sameAnswer hm aluAdd hr
  | andi => exact execI_sameAnswer hm aluAnd hr
  | ori => exact execI_sameAnswer hm aluOr hr
  | xori => exact execI_sameAnswer hm aluXor hr
  | slti => exact execI_sameAnswer hm lessThanSigned hr
  | lw => exact execLoad_sameAnswer hm 4 Memory.readWord hr
  | lb => exact execLoad_sameAnswer hm 1 (fun m a => sext32 (m.readByte a)) hr
  | sw rd off rs2 =>
    simp only [exec_sw, hr rd (by simp [reads])]
    exact execStore_sameAnswer hm (hr rs2 (by simp [reads]))
  | sb r off rs2 =>
    have hb := hr rs2 (by simp [reads])
    simp only [exec_sb, hb]
    exact execStore_sameAnswer hm hb
  | lui => exact returnOk_setReg_sameAnswer hm _ _

end

/-! ## Read-back -/

theorem readMem_le (s : State) (a : Int) : readMem s a ≤ 255 :=
  Nat.le_of_lt_succ (s.mem.get a).isLt

theorem readMem_of_unwritten {s : State} {a : Int} (h : s.mem.find? a = none) :
    readMem s a = 0 := by
  simp [readMem, Memory.get, h]

/-! ## The obligations -/

/-- Settles O21: the list is the store's addresses, without repeats by the canonical form; what
joins is read off the one case list of a completed instruction. -/
theorem onlyStoresGrowTheWrittenSet : Obligations.OnlyStoresGrowTheWrittenSet := by
  refine ⟨fun s hs => ?_, fun i s t a h => ?_, fun l s t hl h => ?_⟩
  · obtain ⟨hwf, -⟩ := hs
    exact ⟨s.mem.map Prod.fst, Memory.nodup_addresses hwf,
      fun a => (s.mem.isSome_find?_iff_mem a).symm, List.length_map _ |>.symm⟩
  · obtain ⟨rd, v, -, rfl⟩ | ⟨rd, off, rs2, rfl, -, rfl⟩ | ⟨r, off, rs2, rfl, -, rfl⟩ :=
      exec_next_cases h
    · exact ⟨id, .inl⟩
    · have hw := s.mem.isSome_find?_writeWord (effAddr rs2 off s) (s.reg rd) a
      refine ⟨fun ha => hw.mpr (.inr ha), fun ha => ?_⟩
      obtain ⟨hlo, hhi⟩ | ha := hw.mp ha
      · exact .inr (.inl ⟨rd, off, rs2, rfl, hlo, hhi⟩)
      · exact .inl ha
    · have hw := s.mem.isSome_find?_writeByte (effAddr rs2 off s) ((s.reg rs2).extractLsb' 0 8) a
      refine ⟨fun ha => hw.mpr (.inr ha), fun ha => ?_⟩
      obtain ha | ha := hw.mp ha
      · exact .inr (.inr ⟨r, off, rs2, rfl, ha⟩)
      · exact .inl ha
  · rw [execLine_skipped s hl] at h
    obtain rfl := Host.Outcome.next.inj h
    rfl

/-- Settles O25: changing the bucket count commutes with every instruction. -/
theorem bucketCountIsFixedAndUnobserved : Obligations.BucketCountIsFixedAndUnobserved := by
  refine ⟨init_bucketCount, fun s t => step_next_bucketCount, fun i s n => ?_,
    fun s n a => ⟨rfl, rfl⟩⟩
  have hcomm : exec i { s with bucketCount := n } = _ := exec_withBucketCount i s n
  constructor
  · intro t ht
    rw [hcomm, ht]
    rfl
  · intro f hf
    rw [hcomm, hf]
    rfl

/-- Settles O26: a completed instruction ends by `return OK`, and a skipped line does not return
OK. -/
theorem everyOkStepResetsRegisterZero : Obligations.EveryOkStepResetsRegisterZero := by
  refine ⟨fun i s t => exec_next_ok, fun l s t h hok => ?_⟩
  obtain ⟨-, rfl⟩ | ⟨i, -, he⟩ := execLine_next_cases h
  · exact absurd hok (by simp)
  · exact (exec_next_ok he).2

/-- Settles O27: the two states' answers agree by the common steps of each category, and the frame
is that of a completed instruction. -/
theorem instructionTouchesOnlyNamedRegisters :
    Obligations.InstructionTouchesOnlyNamedRegisters := by
  intro i s s' hm hr
  have hsame := exec_sameAnswer hm hr
  constructor
  · intro t ht
    rw [ht] at hsame
    exact ⟨hsame.next, fun r hw h0 => exec_next_reg_of_not_written ht hw h0⟩
  · intro f hf
    rw [hf] at hsame
    exact hsame.fault

/-- Settles O46. -/
theorem initLeavesTheStoreEmpty : Obligations.InitLeavesTheStoreEmpty := by
  intro vs
  have hempty : ∀ a, (State.init vs).mem.find? a = none := Memory.find?_nil
  exact ⟨hempty, rfl, fun a => readMem_of_unwritten (hempty a), init_bucketCount vs⟩

/-- Settles O48. -/
theorem readBackOfMemoryAndSize : Obligations.ReadBackOfMemoryAndSize :=
  fun s => ⟨fun a => ⟨rfl, readMem_le s a⟩, fun _ => readMem_of_unwritten, rfl⟩

end Sys2Proof.Machine
end

section
/-! PROOF. The statements about the text of a line (30_encoding.md). -/

namespace Sys2Proof.Machine

/-! ## Classification -/

/-- No mnemonic stands twice in the table, so the lookup finds each entry's own class. -/
theorem classify_eq_of_mem_classTable : ∀ e ∈ classTable, classify e.1 = e.2 := by
  decide

theorem classify_eq_unknown_of_not_mem {mn : Line} (h : mn ∉ classTable.map Prod.fst) :
    classify mn = .unknown := by
  have hnone : classTable.lookup mn = none := by
    refine List.lookup_eq_none_iff.mpr fun e he => bne_iff_ne.mpr ?_
    rintro rfl
    exact h (List.mem_map_of_mem he)
  rw [classify, hnone, Option.getD_none]

/-- Settles O29: the entries of the table are read off one by one, and the strings the statement
excludes are the table's first column. -/
theorem classificationIsTheTable : Obligations.ClassificationIsTheTable := by
  have hentries := classify_eq_of_mem_classTable
  simp only [classTable, List.cons_append, List.nil_append, List.forall_mem_cons] at hentries
  obtain ⟨hadd, hsub, hand, hor, hxor, hnor, hslt, hsll, hsra, haddi, handi, hori, hxori, hslti,
    hlw, hlb, hsw, hsb, hlui, -⟩ := hentries
  exact ⟨hadd, hsub, hand, hor, hxor, hnor, hslt, hsll, hsra, haddi, handi, hori, hxori, hslti,
    hlw, hlb, hsw, hsb, hlui, fun _ => classify_eq_unknown_of_not_mem⟩

end Sys2Proof.Machine
end

section
/-! PROOF. The statements about the R_TYPE instructions (40_r_type.md): each ALU operation is the
integer, or bit by bit the logical, function of its rule, and the common step writes its result. -/

namespace Sys2Proof.Machine

variable (a b : Word)

/-! ## The ALU operations on integers -/

theorem aluAdd_eq_wrap32 : aluAdd a b = wrap32 (s32 a + s32 b) := by
  simp only [aluAdd, wrap32, s32, BitVec.ofInt_add, BitVec.ofInt_toInt]

theorem aluSub_eq_wrap32 : aluSub a b = wrap32 (s32 a - s32 b) := by
  apply BitVec.eq_of_toInt_eq
  rw [aluSub, BitVec.toInt_sub, BitVec.toInt_ofInt]

theorem shiftAmount_eq_mod : shiftAmount b = u32 b % 32 := by
  have hmask : Config.shamtMask.toNat = 2 ^ 5 - 1 := by decide
  rw [shiftAmount, u32, BitVec.toNat_and, hmask, Nat.and_two_pow_sub_one_eq_mod]

theorem aluSll_eq_wrap32 : aluSll a b = wrap32 (u32 a * 2 ^ (u32 b % 32)) := by
  apply BitVec.eq_of_toNat_eq
  rw [aluSll, shiftAmount_eq_mod, BitVec.toNat_shiftLeft, Nat.shiftLeft_eq]
  exact (BitVec.toNat_ofNat (u32 a * 2 ^ (u32 b % 32)) 32).symm

/-- The arithmetic shift is the quotient rounded toward minus infinity, which needs no wrapping. -/
theorem aluSra_eq_wrap32 : aluSra a b = wrap32 (Int.fdiv (s32 a) (2 ^ (u32 b % 32))) := by
  have hquot : s32 (aluSra a b) = Int.fdiv (s32 a) (2 ^ (u32 b % 32)) := by
    rw [s32, aluSra, shiftAmount_eq_mod, BitVec.toInt_sshiftRight, Int.shiftRight_eq_div_pow,
      Int.fdiv_eq_ediv_of_nonneg _ (by positivity)]
    norm_cast
  rw [← hquot, wrap32, BitVec.ofInt_toInt]

/-! ## The comparison -/

theorem s32_lessThanSigned_of_lt {a b : Word} (h : s32 a < s32 b) :
    s32 (lessThanSigned a b) = 1 := by
  rw [lessThanSigned, if_pos h]
  decide

theorem s32_lessThanSigned_of_ge {a b : Word} (h : s32 b ≤ s32 a) :
    s32 (lessThanSigned a b) = 0 := by
  rw [lessThanSigned, if_neg (Int.not_lt.mpr h)]
  decide

/-! ## The bitwise operations -/

theorem getElem_aluAnd (k : Fin 32) : (aluAnd a b)[k] = (a[k] && b[k]) :=
  BitVec.getElem_and k.isLt

theorem getElem_aluOr (k : Fin 32) : (aluOr a b)[k] = (a[k] || b[k]) :=
  BitVec.getElem_or k.isLt

theorem getElem_aluXor (k : Fin 32) : (aluXor a b)[k] = (a[k] != b[k]) :=
  BitVec.getElem_xor k.isLt

theorem getElem_aluNor (k : Fin 32) : (aluNor a b)[k] = !(a[k] || b[k]) :=
  (BitVec.getElem_not k.isLt).trans (congrArg _ (getElem_aluOr a b k))

/-! ## The obligations -/

/-- Settles O1. -/
theorem addWritesWrappedSum : Obligations.AddWritesWrappedSum := by
  intro rd rs1 rs2 s
  rw [← aluAdd_eq_wrap32]
  exact ⟨execR_next aluAdd rd rs1 rs2 s, rfl, rfl⟩

/-- Settles O2. -/
theorem subWritesWrappedDifference : Obligations.SubWritesWrappedDifference := by
  intro rd rs1 rs2 s
  rw [← aluSub_eq_wrap32]
  exact ⟨execR_next aluSub rd rs1 rs2 s, rfl, rfl⟩

/-- Settles O3. -/
theorem andWritesBitwiseAnd : Obligations.AndWritesBitwiseAnd := by
  intro rd rs1 rs2 s
  obtain ⟨t, ht, hw⟩ := execR_next aluAnd rd rs1 rs2 s
  exact ⟨⟨t, _, ht, hw, getElem_aluAnd _ _⟩, rfl, rfl⟩

/-- Settles O4. -/
theorem orWritesBitwiseOr : Obligations.OrWritesBitwiseOr := by
  intro rd rs1 rs2 s
  obtain ⟨t, ht, hw⟩ := execR_next aluOr rd rs1 rs2 s
  exact ⟨⟨t, _, ht, hw, getElem_aluOr _ _⟩, rfl, rfl⟩

/-- Settles O5. -/
theorem xorWritesBitwiseXor : Obligations.XorWritesBitwiseXor := by
  intro rd rs1 rs2 s
  obtain ⟨t, ht, hw⟩ := execR_next aluXor rd rs1 rs2 s
  exact ⟨⟨t, _, ht, hw, getElem_aluXor _ _⟩, rfl, rfl⟩

/-- Settles O6. -/
theorem norWritesBitwiseNor : Obligations.NorWritesBitwiseNor := by
  intro rd rs1 rs2 s
  obtain ⟨t, ht, hw⟩ := execR_next aluNor rd rs1 rs2 s
  exact ⟨⟨t, _, ht, hw, getElem_aluNor _ _⟩, rfl, rfl⟩

/-- Settles O7. -/
theorem sltWritesSignedComparison : Obligations.SltWritesSignedComparison := by
  intro rd rs1 rs2 s
  obtain ⟨t, ht, hw⟩ := execR_next lessThanSigned rd rs1 rs2 s
  exact ⟨⟨t, _, ht, hw, s32_lessThanSigned_of_lt, s32_lessThanSigned_of_ge⟩, rfl, rfl⟩

/-- Settles O8: the mask keeps the low five bits of the amount. -/
theorem sllWritesShiftByLowFiveBits : Obligations.SllWritesShiftByLowFiveBits := by
  intro rd rs1 rs2 s
  rw [← aluSll_eq_wrap32]
  exact ⟨execR_next aluSll rd rs1 rs2 s, rfl, rfl⟩

/-- Settles O9: the arithmetic shift rounds toward minus infinity. -/
theorem sraWritesFloorOfQuotient : Obligations.SraWritesFloorOfQuotient := by
  intro rd rs1 rs2 s
  rw [← aluSra_eq_wrap32]
  exact ⟨execR_next aluSra rd rs1 rs2 s, rfl, rfl⟩

end Sys2Proof.Machine
end

section
/-! PROOF. The statements about the I_TYPE instructions (41_i_type.md): each applies the operation of
its R_TYPE counterpart to the whole immediate word, so the same rules about the ALU operations serve. -/

namespace Sys2Proof.Machine

/-! ## The immediate word as an operand -/

/-- An immediate that some line can hold is not changed by its wrapping (30_encoding.md R69). -/
theorem s32_immWord {imm : Int} (h : immInRange imm = true) : s32 (immWord imm) = imm :=
  Laws.RecordRoundTrip.s32_wrap32 h

/-- Any immediate may be added unwrapped: the sum is taken modulo 2^32. -/
theorem aluAdd_immWord (a : Word) (imm : Int) : aluAdd a (immWord imm) = wrap32 (s32 a + imm) := by
  simp only [aluAdd, immWord, wrap32, s32, BitVec.ofInt_add, BitVec.ofInt_toInt]

/-! ## The obligations -/

/-- Settles O10. -/
theorem addiWritesWrappedSum : Obligations.AddiWritesWrappedSum := by
  intro rd rs1 imm s
  rw [← aluAdd_immWord]
  exact ⟨execI_next aluAdd rd rs1 imm s, rfl, rfl⟩

/-- Settles O11. -/
theorem andiCombinesAllImmediateBits : Obligations.AndiCombinesAllImmediateBits := by
  intro rd rs1 imm s
  obtain ⟨t, ht, hw⟩ := execI_next aluAnd rd rs1 imm s
  exact ⟨⟨t, _, ht, hw, getElem_aluAnd _ _⟩, rfl, rfl⟩

/-- Settles O12. -/
theorem oriCombinesAllImmediateBits : Obligations.OriCombinesAllImmediateBits := by
  intro rd rs1 imm s
  obtain ⟨t, ht, hw⟩ := execI_next aluOr rd rs1 imm s
  exact ⟨⟨t, _, ht, hw, getElem_aluOr _ _⟩, rfl, rfl⟩

/-- Settles O13. -/
theorem xoriCombinesAllImmediateBits : Obligations.XoriCombinesAllImmediateBits := by
  intro rd rs1 imm s
  obtain ⟨t, ht, hw⟩ := execI_next aluXor rd rs1 imm s
  exact ⟨⟨t, _, ht, hw, getElem_aluXor _ _⟩, rfl, rfl⟩

/-- Settles O14: the comparison is with the immediate itself, which a well-formed `slti` holds
unwrapped. -/
theorem sltiWritesSignedComparison : Obligations.SltiWritesSignedComparison := by
  intro rd rs1 imm s hwf
  obtain ⟨t, ht, hw⟩ := execI_next lessThanSigned rd rs1 imm s
  have himm : s32 (immWord imm) = imm := s32_immWord hwf
  refine ⟨⟨t, _, ht, hw, fun hlt => ?_, fun hge => ?_⟩, rfl, rfl⟩
  · exact s32_lessThanSigned_of_lt (by rwa [himm])
  · exact s32_lessThanSigned_of_ge (by rwa [himm])

end Sys2Proof.Machine
end

section
/-! PROOF. The machine's invariant, `x0` across a step, `init` and the read-back of registers
(10_state.md). -/

namespace Sys2Proof.Machine

/-! ## The store stays inside the address range -/

theorem accessInRange_word {ea : Int} :
    AccessInRange ea 4 ↔ -(2 ^ 31 - 1) ≤ ea ∧ ea + 3 ≤ 2 ^ 31 - 1 := by
  simp only [AccessInRange, Config.addrMin, Config.addrMax]
  omega

theorem accessInRange_byte {ea : Int} :
    AccessInRange ea 1 ↔ -(2 ^ 31 - 1) ≤ ea ∧ ea ≤ 2 ^ 31 - 1 := by
  simp only [AccessInRange, Config.addrMin, Config.addrMax]
  omega

theorem not_accessInRange_word {ea : Int} (h : ea < -(2 ^ 31 - 1) ∨ 2 ^ 31 - 1 < ea + 3) :
    ¬ AccessInRange ea 4 := by
  rw [accessInRange_word]
  omega

theorem not_accessInRange_byte {ea : Int} (h : ea < -(2 ^ 31 - 1) ∨ 2 ^ 31 - 1 < ea) :
    ¬ AccessInRange ea 1 := by
  rw [accessInRange_byte]
  omega

theorem Memory.inRange_writeWord {m : Memory} {a : Int} (v : Word) (h : m.inRange)
    (ha : AccessInRange a 4) : (m.writeWord a v).inRange := by
  intro c hc
  obtain ⟨hlo, hhi⟩ := ha
  obtain ⟨hle, hge⟩ | hc := Memory.mem_writeWord hc
  · exact ⟨by omega, by omega⟩
  · exact h c hc

theorem Memory.inRange_writeByte {m : Memory} {a : Int} (v : Byte) (h : m.inRange)
    (ha : AccessInRange a 1) : (m.writeByte a v).inRange := by
  intro c hc
  obtain ⟨hlo, hhi⟩ := ha
  obtain rfl | hc := Memory.mem_put hc
  · exact ⟨hlo, by simpa using hhi⟩
  · exact h c hc

/-! ## The invariant -/

/-- An instruction keeps the canonical form and the range of the store: the range check comes before
every write. -/
theorem exec_next_mem {i : Instr} {s t : State} (h : exec i s = .next t) (hwf : s.mem.wf)
    (hr : s.mem.inRange) : t.mem.wf ∧ t.mem.inRange := by
  obtain ⟨rd, v, -, rfl⟩ | ⟨rd, off, rs2, -, ha, rfl⟩ | ⟨r, off, rs2, -, ha, rfl⟩ :=
    exec_next_cases h
  · exact ⟨hwf, hr⟩
  · exact ⟨Memory.wf_writeWord _ _ hwf, Memory.inRange_writeWord _ hr ha⟩
  · exact ⟨Memory.wf_writeByte _ _ hwf, Memory.inRange_writeByte _ hr ha⟩

theorem exec_next_inv {i : Instr} {s t : State} (h : exec i s = .next t) (hs : s.Inv) : t.Inv := by
  obtain ⟨hwf, hr, hb, -⟩ := hs
  obtain ⟨hwf', hr'⟩ := exec_next_mem h hwf hr
  exact ⟨hwf', hr', (exec_next_bucketCount h).trans hb, fun _ => (exec_next_ok h).2⟩

/-- A skipped line returns SKIPPED, so nothing is asked of `x0` after it. -/
theorem skipped_inv {s : State} (rest : List Line) (hs : s.Inv) :
    ((s.withLines rest).returning .skipped).Inv := by
  obtain ⟨hwf, hr, hb, -⟩ := hs
  exact ⟨hwf, hr, hb, fun hok => by simp at hok⟩

theorem withLines_inv {s : State} (rest : List Line) (hs : s.Inv) : (s.withLines rest).Inv := hs

/-- Settles O44: the idle step, the skipped line and the executed instruction keep the invariant. -/
theorem stepKeepsTheMachineInvariant : Obligations.StepKeepsTheMachineInvariant := by
  intro s t hs h
  obtain ⟨-, rfl⟩ | ⟨l, rest, -, -, rfl⟩ | ⟨l, rest, i, -, -, he⟩ := step_next_cases h
  · exact hs
  · exact skipped_inv rest hs
  · exact exec_next_inv he (withLines_inv rest hs)

theorem init_inv (vs : Vector Int 32) : (State.init vs).Inv := by
  refine ⟨List.Pairwise.nil, fun c hc => ?_, rfl, fun hok => ?_⟩
  · exact absurd hc List.not_mem_nil
  · simp at hok

/-- Settles O45. -/
theorem initMeetsTheMachineInvariant : Obligations.InitMeetsTheMachineInvariant :=
  ⟨init_inv, reset_eq_init ▸ init_inv _⟩

/-! ## Registers across a step, after `init` and in read-back -/

/-- Settles O28: a skipped line does not touch `x0`, and an instruction resets it. -/
theorem registerZeroStaysZero : Obligations.RegisterZeroStaysZero := by
  intro s t hs h
  obtain ⟨-, rfl⟩ | ⟨l, rest, -, -, rfl⟩ | ⟨l, rest, i, -, -, he⟩ := step_next_cases h
  · exact hs
  · exact hs
  · exact (exec_next_ok he).2

/-- Settles O47. -/
theorem initCopiesTheCallersRegisters : Obligations.InitCopiesTheCallersRegisters := by
  refine ⟨fun vs i => ⟨reg_init i vs, fun hlo hhi => ?_⟩, reset_eq_init⟩
  have himm : immInRange vs[i] = true := immInRange_iff.mpr ⟨by omega, by omega⟩
  rw [reg_init, Laws.RecordRoundTrip.s32_wrap32 himm]

/-- Settles O49. -/
theorem readBackOfRegisters : Obligations.ReadBackOfRegisters := by
  refine fun s => ⟨fun r => ?_, fun i hi => ?_⟩
  · have hr : 0 ≤ (r.val : Int) ∧ (r.val : Int) < 32 := by have := r.isLt; omega
    rw [readReg, dif_pos hr]
    rfl
  · exact dif_neg (by omega)

end Sys2Proof.Machine
end

section
/-! PROOF. The statements about `lui` and the MEM_TYPE instructions (42_mem_type.md, 43_u_type.md), and
about a load after a store (20_memory.md). -/

namespace Sys2Proof.Machine

/-! ## `lui` -/

theorem immWord_shiftLeft_luiShift (imm : Int) :
    immWord imm <<< Config.luiShift = wrap32 (imm * 4096) := by
  rw [immWord, Config.luiShift, BitVec.shiftLeft_eq_mul_twoPow, wrap32, wrap32, BitVec.ofInt_mul]
  rfl

theorem extractLsb'_shiftLeft_luiShift (v : Word) :
    (v <<< Config.luiShift).extractLsb' 0 12 = 0 := by
  ext i hi
  simp [Config.luiShift, hi]

/-- Settles O15. -/
theorem luiWritesImmediateTimes4096 : Obligations.LuiWritesImmediateTimes4096 := by
  intro rd imm s
  obtain ⟨t, ht, hw⟩ := returnOk_setReg s rd (immWord imm <<< Config.luiShift)
  exact ⟨⟨t, _, ht, hw, immWord_shiftLeft_luiShift imm, extractLsb'_shiftLeft_luiShift _⟩, rfl, rfl⟩

/-! ## What is read and written -/

theorem toNat_append_eq_add {m n : Nat} (x : BitVec m) (y : BitVec n) :
    (x ++ y).toNat = x.toNat * 2 ^ n + y.toNat := by
  rw [BitVec.toNat_append, ← Nat.shiftLeft_add_eq_or_of_lt y.isLt, Nat.shiftLeft_eq]

theorem Memory.u32_readWord (m : Memory) (a : Int) :
    u32 (m.readWord a) = (m.get a).toNat + (m.get (a + 1)).toNat * 2 ^ 8 +
      (m.get (a + 2)).toNat * 2 ^ 16 + (m.get (a + 3)).toNat * 2 ^ 24 := by
  simp only [u32, Memory.readWord, toNat_append_eq_add]
  ring

theorem s32_sext32 (b : Byte) : s32 (sext32 b) = b.toInt :=
  BitVec.toInt_signExtend_of_le (by decide)

/-- Byte `k` of a word just written (20_memory.md R37, R38). -/
theorem Memory.find?_writeWord_byte (m : Memory) (a : Int) (v : Word) {k : Nat} (hk : k ≤ 3) :
    (m.writeWord a v).find? (a + k) = some (v.extractLsb' (8 * k) 8) := by
  rw [Memory.find?_writeWord]
  interval_cases k <;> simp

theorem Memory.get_writeWord_byte (m : Memory) (a : Int) (v : Word) {k : Nat} (hk : k ≤ 3) :
    (m.writeWord a v).get (a + k) = v.extractLsb' (8 * k) 8 := by
  rw [Memory.get, Memory.find?_writeWord_byte m a v hk, Option.getD_some]

theorem Memory.find?_writeWord_elsewhere (m : Memory) {a b : Int} (v : Word)
    (h : b < a ∨ a + 4 ≤ b) : (m.writeWord a v).find? b = m.find? b := by
  rw [Memory.find?_writeWord, if_neg (by omega), if_neg (by omega), if_neg (by omega),
    if_neg (by omega)]

theorem toNat_lowByte (v : Word) : (v.extractLsb' 0 8).toNat = u32 v % 256 := by
  simp [u32]

/-- The state a store leaves once it has written the store `m` (42_mem_type.md R93). -/
def State.afterStore (s : State) (m : Memory) : State :=
  ((s.withMem m).setReg 0 0).returning .ok

@[simp] theorem afterStore_mem (s : State) (m : Memory) : (s.afterStore m).mem = m := rfl

theorem reg_afterStore (s : State) (m : Memory) {r : Reg} (h : r ≠ 0) :
    (s.afterStore m).reg r = s.reg r := by
  rw [State.afterStore, reg_returning, reg_setReg_other _ _ _ _ h, reg_withMem]

/-- A store that completes changes the store alone, `x0` and the outcome apart. -/
theorem storesBytes_afterStore {s : State} {m : Memory} {ea : Int} {bytes : List Byte}
    (hin : ∀ k (h : k < bytes.length), m.find? (ea + k) = some bytes[k])
    (hout : ∀ a, a < ea ∨ ea + bytes.length ≤ a → m.find? a = s.mem.find? a) :
    StoresBytes s (s.afterStore m) ea bytes where
  stored := hin
  elsewhere := hout
  zero := reg_setReg_same _ _ _
  registers _ hr := reg_afterStore s m hr
  buckets := rfl
  lines := rfl
  returned := rfl

theorem storesBytes_writeWord (s : State) (ea : Int) (v : Word) :
    StoresBytes s (s.afterStore (s.mem.writeWord ea v)) ea
      [v.extractLsb' 0 8, v.extractLsb' 8 8, v.extractLsb' 16 8, v.extractLsb' 24 8] := by
  refine storesBytes_afterStore (fun k hk => ?_) fun a ha => s.mem.find?_writeWord_elsewhere v ha
  have hk3 : k ≤ 3 := Nat.le_of_lt_succ hk
  rw [Memory.find?_writeWord_byte _ _ _ hk3]
  interval_cases k <;> rfl

theorem storesBytes_writeByte (s : State) (ea : Int) (b : Byte) :
    StoresBytes s (s.afterStore (s.mem.writeByte ea b)) ea [b] := by
  refine storesBytes_afterStore (fun k hk => ?_) fun a ha => ?_
  · obtain rfl : k = 0 := Nat.lt_one_iff.mp hk
    simp [Memory.find?_writeByte]
  · have hne : a ≠ ea := by rw [List.length_singleton] at ha; omega
    rw [Memory.find?_writeByte, if_neg hne]

/-- Where `sw` answers a next state, it is the word's store inside the range. -/
theorem exec_sw_eq_next {rd rs2 : Reg} {off : Int} {s t : State}
    (h : exec (.sw rd off rs2) s = .next t) :
    AccessInRange (effAddr rs2 off s) 4 ∧
      t = s.afterStore (s.mem.writeWord (effAddr rs2 off s) (s.reg rd)) := by
  rw [exec_sw] at h
  exact execStore_eq_next h

/-! ## Each MEM_TYPE instruction -/

/-- Settles O16. -/
theorem loadWordReadsLittleEndianInRange : Obligations.LoadWordReadsLittleEndianInRange := by
  rintro rd rs2 off s ea rfl
  refine ⟨fun hr => ?_, fun hr => ?_, rfl, rfl⟩
  · obtain ⟨t, ht, hw⟩ :=
      execLoad_next 4 Memory.readWord rd off rs2 s (accessInRange_word.mpr hr)
    exact ⟨t, _, ht, hw, Memory.u32_readWord _ _⟩
  · rw [exec_lw]
    exact execLoad_fault _ _ _ _ _ _ (not_accessInRange_word hr)

/-- Settles O17. -/
theorem loadByteSignExtendsInRange : Obligations.LoadByteSignExtendsInRange := by
  rintro rd rs2 off s ea rfl
  refine ⟨fun hr => ?_, fun hr => ?_, rfl, rfl⟩
  · obtain ⟨t, ht, hw⟩ :=
      execLoad_next 1 (fun m a => sext32 (m.readByte a)) rd off rs2 s (accessInRange_byte.mpr hr)
    exact ⟨t, _, ht, hw, s32_sext32 _⟩
  · rw [exec_lb]
    exact execLoad_fault _ _ _ _ _ _ (not_accessInRange_byte hr)

/-- Settles O18. -/
theorem storeWordWritesFourBytesInRange : Obligations.StoreWordWritesFourBytesInRange := by
  rintro rd rs2 off s ea rfl
  rw [exec_sw]
  refine ⟨fun hr => ?_, fun hr => ?_, rfl, rfl⟩
  · exact ⟨_, _, _, _, _, execStore_next _ _ _ _ _ (accessInRange_word.mpr hr),
      storesBytes_writeWord s _ (s.reg rd), word_of_bytes (s.reg rd)⟩
  · exact execStore_fault _ _ _ _ _ (not_accessInRange_word hr)

/-- Settles O19. -/
theorem storeByteWritesBaseLowByteInRange : Obligations.StoreByteWritesBaseLowByteInRange := by
  rintro r rs2 off s ea rfl
  rw [exec_sb]
  refine ⟨fun hr => ?_, fun hr => ?_, rfl, rfl⟩
  · exact ⟨_, _, execStore_next _ _ _ _ _ (accessInRange_byte.mpr hr),
      storesBytes_writeByte s _ ((s.reg rs2).extractLsb' 0 8), toNat_lowByte (s.reg rs2)⟩
  · exact execStore_fault _ _ _ _ _ (not_accessInRange_byte hr)

/-! ## The entry count -/

theorem Memory.size_put_eq_add {m : Memory} (a : Int) (v : Byte) (h : m.wf) :
    (m.put a v).size = m.size + if (m.find? a).isNone then 1 else 0 := by
  rw [Memory.size_put a v h]
  cases m.find? a <;> rfl

/-- The four locations of a word are different, so each counts by what the store held before. -/
theorem Memory.size_writeWord {m : Memory} (a : Int) (v : Word) (h : m.wf) :
    (m.writeWord a v).size = m.size +
      ((List.range 4).filter (fun (k : Nat) => (m.find? (a + k)).isNone)).length := by
  have h1 := Memory.wf_put a (v.extractLsb' 0 8) h
  have h2 := Memory.wf_put (a + 1) (v.extractLsb' 8 8) h1
  have h3 := Memory.wf_put (a + 2) (v.extractLsb' 16 8) h2
  rw [Memory.writeWord, Memory.size_put_eq_add _ _ h3, Memory.size_put_eq_add _ _ h2,
    Memory.size_put_eq_add _ _ h1, Memory.size_put_eq_add _ _ h]
  have hrange : List.range 4 = [0, 1, 2, 3] := rfl
  simp [Memory.find?_put_other, hrange, ← List.countP_eq_length_filter, List.countP_cons]
  ring

/-- Settles O20. -/
theorem storeWordAddsUnwrittenLocations : Obligations.StoreWordAddsUnwrittenLocations := by
  intro rd rs2 off s t hwf h
  obtain ⟨-, rfl⟩ := exec_sw_eq_next h
  exact Memory.size_writeWord _ _ hwf

/-! ## A load after a store -/

/-- A store resets `x0` and no other register, so a base that is not `x0`, or an `x0` that held 0,
gives the same address after it. -/
theorem effAddr_afterStore {s : State} (m : Memory) {base : Reg} (off : Int)
    (hb : base ≠ 0 ∨ LaunchPremise s) :
    effAddr base off (s.afterStore m) = effAddr base off s := by
  have hreg : (s.afterStore m).reg base = s.reg base := by
    obtain h0 | h0 := ne_or_eq base 0
    · exact reg_afterStore s m h0
    · subst h0
      exact (reg_setReg_same _ _ _).trans (hb.resolve_left (absurd rfl)).symm
  rw [effAddr, hreg, effAddr]

/-- Settles O22: the load's address is the store's, and a word read where it was written is the
word. -/
theorem storeWordThenLoadWordReturnsIt : Obligations.StoreWordThenLoadWordReturnsIt := by
  intro rs rd base off s t h hb
  obtain ⟨hr, rfl⟩ := exec_sw_eq_next h
  have hea := effAddr_afterStore (s.mem.writeWord (effAddr base off s) (s.reg rs)) off hb
  obtain ⟨u, hu, hw⟩ := execLoad_next 4 Memory.readWord rd off base _ (hea.symm ▸ hr)
  rw [hea, afterStore_mem, Memory.readWord_writeWord] at hw
  exact ⟨u, hu, hw⟩

/-- Settles O23: the load's address is that of byte `k` of the word stored. -/
theorem storeWordThenLoadByteSeesThatByte : Obligations.StoreWordThenLoadByteSeesThatByte := by
  intro rs rd base off k s t hk h hb
  obtain ⟨hr, rfl⟩ := exec_sw_eq_next h
  have hea := effAddr_afterStore (s.mem.writeWord (effAddr base off s) (s.reg rs)) (off + k) hb
  have hk' : effAddr base (off + k) s = effAddr base off s + k := (Int.add_assoc _ _ _).symm
  rw [hk'] at hea
  have hr' : AccessInRange (effAddr base off s + k) 1 := by
    rw [accessInRange_word] at hr
    rw [accessInRange_byte]
    omega
  obtain ⟨u, hu, hw⟩ := execLoad_next 1 (fun m a => sext32 (m.readByte a)) rd (off + k) base _
    (hea.symm ▸ hr')
  rw [hea, afterStore_mem, Memory.readByte, Memory.get_writeWord_byte _ _ _ hk] at hw
  exact ⟨u, _, hu, hw, s32_sext32 _⟩

end Sys2Proof.Machine
end

section
/-! PROOF. The bucketed store refines the finite map (20_memory.md section 5, log 5): after any puts
each chain answers as the map does on the addresses of its bucket, and lists none of them twice. -/

namespace Sys2Proof.Machine

/-! ## Lists of cells without repeated addresses -/

/-- In a list of cells whose addresses are all different, being listed is being found. -/
theorem mem_iff_find? {l : List Cell} (h : (l.map Prod.fst).Nodup) {c : Cell} :
    c ∈ l ↔ Memory.find? l c.1 = some c.2 := by
  induction l with
  | nil => simp
  | cons d l ih =>
    obtain ⟨hd, hl⟩ := List.nodup_cons.mp h
    rw [List.mem_cons, ih hl, Memory.find?]
    split
    · next heq =>
      have hnone : Memory.find? l c.1 = none := by
        rw [heq, ← Memory.isSome_find?_iff_mem] at hd
        simpa using hd
      simp [hnone, Prod.ext_iff, heq, eq_comm]
    · next hne =>
      simp [Prod.ext_iff, Ne.symm hne]

/-! ## A `put` in one chain -/

/-- What a `put` makes of an entry already listed: the byte of its own address, any other as it
was. -/
def overwrite (a : Int) (v : Byte) (c : Cell) : Cell := if c.1 = a then (a, v) else c

theorem overwrite_fst (a : Int) (v : Byte) (c : Cell) : (overwrite a v c).1 = c.1 := by
  rw [overwrite]
  split
  · next h => exact h.symm
  · rfl

theorem chainPut_eq_cons {chain : List Cell} {a : Int} (v : Byte) (h : a ∉ chain.map Prod.fst) :
    chainPut chain a v = (a, v) :: chain := by
  refine if_neg fun hany => h ?_
  obtain ⟨c, hc, hca⟩ := List.any_eq_true.mp hany
  exact List.mem_map.mpr ⟨c, hc, eq_of_beq hca⟩

theorem chainPut_eq_map {chain : List Cell} {a : Int} (v : Byte) (h : a ∈ chain.map Prod.fst) :
    chainPut chain a v = chain.map (overwrite a v) := by
  obtain ⟨c, hc, hca⟩ := List.mem_map.mp h
  exact if_pos (List.any_eq_true.mpr ⟨c, hc, by simpa using hca⟩)

/-- Overwriting an entry in place moves no address. -/
theorem addresses_overwrite (chain : List Cell) (a : Int) (v : Byte) :
    (chain.map (overwrite a v)).map Prod.fst = chain.map Prod.fst := by
  rw [List.map_map]
  exact List.map_congr_left fun c _ => overwrite_fst a v c

theorem find?_overwrite (chain : List Cell) (a : Int) (v : Byte) (b : Int) :
    Memory.find? (chain.map (overwrite a v)) b =
      if b = a ∧ a ∈ chain.map Prod.fst then some v else Memory.find? chain b := by
  induction chain with
  | nil => simp
  | cons c chain ih =>
    rw [List.map_cons, Memory.find?, overwrite_fst, ih, Memory.find?, List.map_cons]
    by_cases hca : c.1 = a
    · by_cases hab : a = b
      · simp [overwrite, hca, hab]
      · simp [hca, hab, Ne.symm hab]
    · by_cases hcb : c.1 = b
      · simp [overwrite, hcb, show b ≠ a from hcb ▸ hca]
      · simp [hcb, Ne.symm hca]

theorem find?_chainPut (chain : List Cell) (a : Int) (v : Byte) (b : Int) :
    Memory.find? (chainPut chain a v) b = if b = a then some v else Memory.find? chain b := by
  by_cases h : a ∈ chain.map Prod.fst
  · simp only [chainPut_eq_map v h, find?_overwrite, h, and_true]
  · rw [chainPut_eq_cons v h, Memory.find?]
    simp only [eq_comm]

theorem nodup_chainPut {chain : List Cell} (a : Int) (v : Byte)
    (hn : (chain.map Prod.fst).Nodup) : ((chainPut chain a v).map Prod.fst).Nodup := by
  by_cases h : a ∈ chain.map Prod.fst
  · rwa [chainPut_eq_map v h, addresses_overwrite]
  · rw [chainPut_eq_cons v h]
    exact List.nodup_cons.mpr ⟨h, hn⟩

/-! ## The refinement -/

/-- The bucketed store `b` of `n` chains stands for the map `m`: chain `k` lists no address twice and
answers as the map does on the addresses whose bucket is `k`, and nothing on the others. -/
structure Buckets.Refines (n : Nat) (b : Buckets) (m : Memory) : Prop where
  length : b.length = n
  wf : m.wf
  nodup : ∀ k < n, ((b.getD k []).map Prod.fst).Nodup
  find : ∀ k < n, ∀ a, Memory.find? (b.getD k []) a =
    if bucketIndex n a = k then m.find? a else none

theorem bucketIndex_lt {n : Nat} (hn : 0 < n) (a : Int) : bucketIndex n a < n := Nat.mod_lt _ hn

theorem Buckets.refines_empty (n : Nat) : Buckets.Refines n (Buckets.empty n) [] where
  length := List.length_replicate
  wf := List.Pairwise.nil
  nodup k hk := by simp [Buckets.empty, hk]
  find k hk a := by simp [Buckets.empty, hk]

theorem Buckets.getD_put {b : Buckets} (hb : 0 < b.length) (a : Int) (v : Byte) (k : Nat) :
    (b.put a v).getD k [] =
      if bucketIndex b.length a = k then chainPut (b.getD k []) a v else b.getD k [] := by
  rw [Buckets.put, Buckets.chain, List.getD_eq_getElem?_getD, List.getElem?_set]
  split
  · next h => subst h; simp [bucketIndex_lt hb]
  · rw [List.getD_eq_getElem?_getD]

section
variable {n : Nat} {b : Buckets} {m : Memory} (hn : 0 < n) (h : b.Refines n m)
include hn h

theorem Buckets.refines_put (a : Int) (v : Byte) : (b.put a v).Refines n (m.put a v) where
  length := List.length_set.trans h.length
  wf := Memory.wf_put a v h.wf
  nodup k hk := by
    rw [Buckets.getD_put (h.length ▸ hn)]
    split
    · exact nodup_chainPut a v (h.nodup k hk)
    · exact h.nodup k hk
  find k hk c := by
    have hfind := h.find k hk c
    rw [Buckets.getD_put (h.length ▸ hn), h.length, Memory.find?_put]
    by_cases hc : c = a
    · subst hc
      by_cases hi : bucketIndex n c = k
      · simp only [hi, find?_chainPut, if_true]
      · simpa only [hi, if_false] using hfind
    · simp only [hc, if_false]
      split
      · rw [find?_chainPut, if_neg hc, hfind]
      · exact hfind

theorem Buckets.refines_puts (puts : List (Int × Byte)) :
    Buckets.Refines n (puts.foldl (fun b p => Buckets.put b p.1 p.2) b)
      (puts.foldl (fun m p => Memory.put m p.1 p.2) m) := by
  induction puts generalizing b m with
  | nil => exact h
  | cons p puts ih => exact ih (Buckets.refines_put hn h p.1 p.2)

theorem Buckets.Refines.get_eq (a : Int) : b.get a = m.get a := by
  rw [Buckets.get, Buckets.chain, Memory.get, h.length, h.find _ (bucketIndex_lt hn a), if_pos rfl,
    Memory.get]

omit hn in
/-- A chain and the map's entries of that bucket list the same cells, each once. -/
theorem Buckets.Refines.perm {k : Nat} (hk : k < n) :
    (b.getD k []).Perm (m.filter (fun c => bucketIndex n c.1 == k)) := by
  have hm := Memory.nodup_addresses h.wf
  refine (List.perm_ext_iff_of_nodup (h.nodup k hk).of_map (hm.of_map.filter _)).mpr fun c => ?_
  rw [mem_iff_find? (h.nodup k hk), List.mem_filter, mem_iff_find? hm, h.find k hk, beq_iff_eq]
  by_cases hi : bucketIndex n c.1 = k <;> simp [hi]

end

/-- Every entry is counted in exactly one bucket. -/
theorem sum_bucket_counts {n : Nat} (hn : 0 < n) (m : Memory) :
    ((List.range n).map fun k => (m.filter (fun c => bucketIndex n c.1 == k)).length).sum =
      m.length := by
  simp only [← List.countP_eq_length_filter]
  induction m with
  | nil => simp
  | cons c m ih =>
    have hone : ((List.range n).map fun k => if bucketIndex n c.1 = k then 1 else 0).sum = 1 := by
      change ∑ k ∈ Finset.range n, (if bucketIndex n c.1 = k then 1 else 0) = 1
      rw [Finset.sum_ite_eq, if_pos (Finset.mem_range.mpr (bucketIndex_lt hn c.1))]
    simp only [List.countP_cons, beq_iff_eq, List.sum_map_add, ih, hone, List.length_cons]

theorem Buckets.Refines.size_eq {n : Nat} {b : Buckets} {m : Memory} (hn : 0 < n)
    (h : b.Refines n m) : b.size = m.size := by
  have hlen : b.map List.length =
      (List.range n).map fun k => (m.filter (fun c => bucketIndex n c.1 == k)).length := by
    refine List.ext_getElem (by simp [h.length]) fun k hk _ => ?_
    have hkn : k < n := by simpa [h.length] using hk
    simpa [h.length, hkn] using (h.perm hkn).length_eq
  rw [Buckets.size, hlen, sum_bucket_counts hn, Memory.size]

/-- Settles O24: the empty stores stand for each other and every put keeps that. -/
theorem bucketStoreRefinesFiniteMap : Obligations.BucketStoreRefinesFiniteMap := by
  intro n puts hn b m
  have h : Buckets.Refines n b m := Buckets.refines_puts hn (Buckets.refines_empty n) puts
  refine ⟨h.length, h.get_eq hn, h.size_eq hn, fun s k hm hb hk => ?_⟩
  rw [State.chainOf, hm, hb]
  exact h.perm hk

end Sys2Proof.Machine
end

section
/-! PROOF. The statements about digits and tokens (30_encoding.md section 5): each token parser is read
off its definition once, branch by branch. -/

namespace Sys2Proof

/-! ## Digits -/

theorem isDecDigit_iff_toNat {c : Char} : isDecDigit c = true ↔ 48 ≤ c.toNat ∧ c.toNat ≤ 57 := by
  simp [isDecDigit]

theorem isDecDigit_iff_le {c : Char} : isDecDigit c = true ↔ '0' ≤ c ∧ c ≤ '9' := by
  rw [isDecDigit_iff_toNat, Char.le_def, Char.le_def, UInt32.le_iff_toNat_le, UInt32.le_iff_toNat_le]
  rfl

theorem isHexDigit_iff_toNat {c : Char} : isHexDigit c = true ↔
    (48 ≤ c.toNat ∧ c.toNat ≤ 57) ∨ (97 ≤ c.toNat ∧ c.toNat ≤ 102) ∨
      (65 ≤ c.toNat ∧ c.toNat ≤ 70) := by
  simp [isHexDigit, isDecDigit, or_assoc]

/-- The characters with the codes `start` to `start + len - 1`. -/
theorem mem_map_ofNat_range' {c : Char} {start len : Nat} (h : start + len ≤ 128) :
    c ∈ (List.range' start len).map Char.ofNat ↔ start ≤ c.toNat ∧ c.toNat < start + len := by
  simp only [List.mem_map, List.mem_range'_1]
  constructor
  · rintro ⟨n, hn, rfl⟩
    rwa [Char.toNat_ofNat, if_pos (.inl (by omega))]
  · exact fun hc => ⟨c.toNat, hc, Char.ofNat_toNat c⟩

theorem decDigits_text : "0123456789".toList = (List.range' 48 10).map Char.ofNat := by decide

theorem hexDigits_text : "0123456789abcdefABCDEF".toList =
    (List.range' 48 10).map Char.ofNat ++ (List.range' 97 6).map Char.ofNat ++
      (List.range' 65 6).map Char.ofNat := by decide

theorem isDecDigit_iff_mem {c : Char} : isDecDigit c = true ↔ c ∈ "0123456789".toList := by
  rw [isDecDigit_iff_toNat, decDigits_text, mem_map_ofNat_range' (by decide)]
  omega

theorem isHexDigit_iff_mem {c : Char} :
    isHexDigit c = true ↔ c ∈ "0123456789abcdefABCDEF".toList := by
  rw [isHexDigit_iff_toNat, hexDigits_text, List.mem_append, List.mem_append,
    mem_map_ofNat_range' (by decide), mem_map_ofNat_range' (by decide),
    mem_map_ofNat_range' (by decide)]
  omega

theorem decDigit_value : ∀ n (h : n < "0123456789".toList.length),
    ("0123456789".toList[n]).toNat - 48 = n := by decide

theorem hexDigit_value_lower : ∀ n (h : n < "0123456789abcdef".toList.length),
    hexDigitVal ("0123456789abcdef".toList[n]) = n := by decide

theorem hexDigit_value_upper : ∀ n (h : n < "0123456789ABCDEF".toList.length),
    hexDigitVal ("0123456789ABCDEF".toList[n]) = n := by decide

/-- Settles O50. -/
theorem digitSetsAndDigitStringValues : Obligations.DigitSetsAndDigitStringValues := by
  refine ⟨fun c => isDecDigit_iff_mem, fun c => isHexDigit_iff_mem, rfl, rfl, fun d n c hc => ?_,
    fun h n c hc => ?_⟩
  · obtain ⟨hn, rfl⟩ := List.getElem?_eq_some_iff.mp hc
    rw [decVal_append, decDigit_value n hn]
  · rw [hexVal_append]
    obtain hc | hc := hc
    · obtain ⟨hn, rfl⟩ := List.getElem?_eq_some_iff.mp hc
      rw [hexDigit_value_lower n hn]
    · obtain ⟨hn, rfl⟩ := List.getElem?_eq_some_iff.mp hc
      rw [hexDigit_value_upper n hn]

/-! ## Parsers that refuse only by INVALID_OPERAND -/

/-- A parse of tokens, which has no other error than INVALID_OPERAND (60_exceptions.md R104). -/
def OnlyInvalidOperand {α : Type} (x : Except DecodeError α) : Prop :=
  ∀ e, x = .error e → e = .invalidOperand

theorem onlyInvalidOperand_ok {α : Type} (a : α) : OnlyInvalidOperand (.ok a) :=
  fun _ h => nomatch h

theorem onlyInvalidOperand_error {α : Type} :
    OnlyInvalidOperand (.error .invalidOperand : Except DecodeError α) :=
  fun _ h => (Except.error.inj h).symm

theorem OnlyInvalidOperand.bind {α β : Type} {x : Except DecodeError α}
    {f : α → Except DecodeError β} (hx : OnlyInvalidOperand x)
    (hf : ∀ a, OnlyInvalidOperand (f a)) : OnlyInvalidOperand (x >>= f) := by
  cases x with
  | ok a => exact hf a
  | error e => exact fun _ h => hx _ (congrArg _ (Except.error.inj h))

theorem OnlyInvalidOperand.ne_invalidInstruction {α : Type} {x : Except DecodeError α}
    (hx : OnlyInvalidOperand x) : x ≠ .error .invalidInstruction :=
  fun h => nomatch hx _ h

/-! ## Register tokens -/

theorem parseReg_eq_ok {t : Line} {r : Reg} : parseReg t = .ok r ↔
    ∃ d, t = 'x' :: d ∧ d ≠ [] ∧ (∀ c ∈ d, isDecDigit c = true) ∧ decVal d = r.val := by
  constructor
  · intro h
    unfold parseReg at h
    split at h
    · next d =>
      split at h
      · next hd =>
        split at h
        · obtain rfl := Except.ok.inj h
          exact ⟨d, rfl, hd.1, List.all_eq_true.mp hd.2, rfl⟩
        · exact nomatch h
      · exact nomatch h
    · exact nomatch h
  · rintro ⟨d, rfl, hne, hd, hv⟩
    have hle : decVal d ≤ 31 := by have := r.isLt; omega
    rw [parseReg, if_pos ⟨hne, List.all_eq_true.mpr hd⟩, dif_pos hle]
    exact congrArg _ (Fin.ext hv)

theorem parseReg_only (t : Line) : OnlyInvalidOperand (parseReg t) := by
  unfold parseReg
  split
  · split
    · split
      · exact onlyInvalidOperand_ok _
      · exact onlyInvalidOperand_error
    · exact onlyInvalidOperand_error
  · exact onlyInvalidOperand_error

/-- Settles O33. -/
theorem registerTokensAreXThenDigits : Obligations.RegisterTokensAreXThenDigits := by
  refine fun t => ⟨fun r => ?_, parseReg_only t⟩
  simp only [parseReg_eq_ok, isDecDigit_iff_le]

/-! ## Digits with a sign -/

theorem parseSigned_eq_ok {sign : Int} {d : Line} {n : Int} : parseSigned sign d = .ok n ↔
    d ≠ [] ∧ d.all isDecDigit = true ∧ immInRange n = true ∧ n = sign * decVal d := by
  rw [parseSigned]
  split
  · next h =>
    obtain ⟨hne, hd, hr⟩ := h
    constructor
    · intro hn
      obtain rfl := Except.ok.inj hn
      exact ⟨hne, hd, hr, rfl⟩
    · rintro ⟨-, -, -, rfl⟩
      rfl
  · next h =>
    refine ⟨fun hn => (nomatch hn), fun hn => absurd ?_ h⟩
    obtain ⟨hne, hd, hr, rfl⟩ := hn
    exact ⟨hne, hd, hr⟩

theorem parseSigned_of_inRange {sign : Int} {d : Line} (hne : d ≠ [])
    (hd : d.all isDecDigit = true) (hr : immInRange (sign * decVal d) = true) :
    parseSigned sign d = .ok (sign * decVal d) := if_pos ⟨hne, hd, hr⟩

theorem parseSigned_not_inRange {sign : Int} {d : Line} (hr : ¬ immInRange (sign * decVal d) = true) :
    parseSigned sign d = .error .invalidOperand := if_neg fun h => hr h.2.2

theorem parseSigned_not_digits (sign : Int) {d : Line} (hd : d.all isDecDigit = false) :
    parseSigned sign d = .error .invalidOperand := if_neg fun h => by simp [hd] at h

theorem parseSigned_only (sign : Int) (d : Line) : OnlyInvalidOperand (parseSigned sign d) := by
  rw [parseSigned]
  split
  · exact onlyInvalidOperand_ok _
  · exact onlyInvalidOperand_error

/-! ## Offset tokens -/

theorem parseOff_minus (d : Line) : parseOff ('-' :: d) = parseSigned (-1) d := rfl

theorem parseOff_plus (d : Line) : parseOff ('+' :: d) = parseSigned 1 d := rfl

theorem parseOff_unsigned {t : Line} (hm : t.head? ≠ some '-') (hp : t.head? ≠ some '+') :
    parseOff t = parseSigned 1 t := by
  unfold parseOff
  split
  · exact absurd rfl hm
  · exact absurd rfl hp
  · rfl

/-- A string of digits has no sign before it. -/
theorem head?_ne_of_not_digit {d : Line} (hd : d.all isDecDigit = true) {c : Char}
    (hc : isDecDigit c = false) : d.head? ≠ some c := by
  intro h
  have hmem := List.all_eq_true.mp hd c (List.mem_of_mem_head? h)
  simp [hc] at hmem

theorem parseOff_digits {d : Line} (hd : d.all isDecDigit = true) : parseOff d = parseSigned 1 d :=
  parseOff_unsigned (head?_ne_of_not_digit hd rfl) (head?_ne_of_not_digit hd rfl)

/-- An offset token is its digits with at most one sign before them. -/
theorem parseOff_cases (t : Line) :
    (∃ d, t = '-' :: d ∧ parseOff t = parseSigned (-1) d) ∨
    (∃ d, (t = d ∨ t = '+' :: d) ∧ parseOff t = parseSigned 1 d) := by
  unfold parseOff
  split
  · exact .inl ⟨_, rfl, rfl⟩
  · exact .inr ⟨_, .inr rfl, rfl⟩
  · exact .inr ⟨_, .inl rfl, rfl⟩

theorem parseOff_only (t : Line) : OnlyInvalidOperand (parseOff t) := by
  obtain ⟨d, -, h⟩ | ⟨d, -, h⟩ := parseOff_cases t <;> exact h ▸ parseSigned_only _ d

theorem immInRange_iff_pow {n : Int} : immInRange n = true ↔ -(2 ^ 31) ≤ n ∧ n ≤ 2 ^ 31 - 1 := by
  rw [immInRange_iff]
  omega

theorem parseOff_eq_ok {t : Line} {n : Int} : parseOff t = .ok n ↔
    ∃ d, d ≠ [] ∧ d.all isDecDigit = true ∧ immInRange n = true ∧
      ((t = '-' :: d ∧ n = -(decVal d : Int)) ∨ ((t = d ∨ t = '+' :: d) ∧ n = decVal d)) := by
  constructor
  · intro h
    obtain ⟨d, rfl, hp⟩ | ⟨d, ht, hp⟩ := parseOff_cases t
    · obtain ⟨hne, hd, hr, hn⟩ := parseSigned_eq_ok.mp (hp ▸ h)
      exact ⟨d, hne, hd, hr, .inl ⟨rfl, by omega⟩⟩
    · obtain ⟨hne, hd, hr, hn⟩ := parseSigned_eq_ok.mp (hp ▸ h)
      exact ⟨d, hne, hd, hr, .inr ⟨ht, by omega⟩⟩
  · rintro ⟨d, hne, hd, hr, ⟨rfl, hn⟩ | ⟨rfl | rfl, hn⟩⟩
    · rw [parseOff_minus, parseSigned_eq_ok]
      exact ⟨hne, hd, hr, by omega⟩
    · rw [parseOff_digits hd, parseSigned_eq_ok]
      exact ⟨hne, hd, hr, by omega⟩
    · rw [parseOff_plus, parseSigned_eq_ok]
      exact ⟨hne, hd, hr, by omega⟩

/-- Settles O35. -/
theorem offsetTokensAreSignedDecimal : Obligations.OffsetTokensAreSignedDecimal := by
  refine fun t => ⟨fun n => ?_, parseOff_only t⟩
  simp only [parseOff_eq_ok, immInRange_iff_pow, and_assoc]

/-! ## Immediate tokens -/

theorem parseHexMagnitude_of_digits {h : Line} (hne : h ≠ []) (hh : h.all isHexDigit = true)
    (hv : hexVal h ≤ 2 ^ 31 - 1) : parseHexMagnitude h = .ok (hexVal h) :=
  if_pos ⟨hne, hh, by simp only [Config.immMax]; omega⟩

theorem parseHexMagnitude_refused {h : Line}
    (hr : h = [] ∨ h.all isHexDigit = false ∨ 2 ^ 31 - 1 < hexVal h) :
    parseHexMagnitude h = .error .invalidOperand := by
  refine if_neg fun ⟨hne, hh, hv⟩ => ?_
  obtain hr | hr | hr := hr
  · exact hne hr
  · exact absurd (hh.symm.trans hr) (by decide)
  · simp only [Config.immMax] at hv
    omega

theorem parseHexMagnitude_only (h : Line) : OnlyInvalidOperand (parseHexMagnitude h) := by
  rw [parseHexMagnitude]
  split
  · exact onlyInvalidOperand_ok _
  · exact onlyInvalidOperand_error

theorem parseImm_hex (h : Line) : parseImm ('0' :: 'x' :: h) = parseHexMagnitude h := rfl

theorem parseImm_minus_hex (h : Line) :
    parseImm ('-' :: '0' :: 'x' :: h) = (parseHexMagnitude h).map (fun m => -m) := rfl

theorem parseImm_plus (t : Line) : parseImm ('+' :: t) = parseDecimal 1 t := rfl

theorem parseImm_minus {t : Line} (ht : ¬ ∃ h, t = '0' :: 'x' :: h) :
    parseImm ('-' :: t) = parseDecimal (-1) t := by
  unfold parseImm
  split
  · next heq => simp at heq
  · next h heq => exact absurd ⟨h, (List.cons.inj heq).2⟩ ht
  · next heq => rw [(List.cons.inj heq).2]
  · next heq => simp at heq
  · next hne _ => exact absurd rfl (hne t)

theorem parseImm_unsigned {t : Line} (hx : ¬ ∃ h, t = '0' :: 'x' :: h) (hm : t.head? ≠ some '-')
    (hp : t.head? ≠ some '+') : parseImm t = parseDecimal 1 t := by
  unfold parseImm
  split
  · exact absurd ⟨_, rfl⟩ hx
  · exact absurd rfl hm
  · exact absurd rfl hm
  · exact absurd rfl hp
  · rfl

theorem parseDecimal_not_digit (sign : Int) {t : Line}
    (ht : ∀ c cs, t = c :: cs → isDecDigit c = false) : parseDecimal sign t = .ok 0 := by
  cases t with
  | nil => rfl
  | cons c cs => simp [parseDecimal, ht c cs rfl]

theorem parseDecimal_digit (sign : Int) {c : Char} (cs : Line) (hc : isDecDigit c = true) :
    parseDecimal sign (c :: cs) = parseSigned sign (c :: cs) := by
  simp [parseDecimal, hc]

theorem parseDecimal_only (sign : Int) (t : Line) : OnlyInvalidOperand (parseDecimal sign t) := by
  unfold parseDecimal
  split
  · exact onlyInvalidOperand_ok _
  · split
    · exact parseSigned_only sign _
    · exact onlyInvalidOperand_ok _

theorem OnlyInvalidOperand.map {α β : Type} {x : Except DecodeError α} (f : α → β)
    (hx : OnlyInvalidOperand x) : OnlyInvalidOperand (x.map f) := by
  cases x with
  | ok a => exact onlyInvalidOperand_ok _
  | error e => exact fun _ h => hx _ (congrArg _ (Except.error.inj h))

theorem parseImm_only (t : Line) : OnlyInvalidOperand (parseImm t) := by
  unfold parseImm
  split
  · exact parseHexMagnitude_only _
  · exact (parseHexMagnitude_only _).map _
  · exact parseDecimal_only _ _
  · exact parseDecimal_only _ _
  · exact parseDecimal_only _ _

/-- A string of digits does not begin as a hexadecimal number. -/
theorem not_hex_of_digits {d : Line} (hd : d.all isDecDigit = true) :
    ¬ ∃ h, d = '0' :: 'x' :: h := by
  rintro ⟨h, rfl⟩
  simp [isDecDigit] at hd

/-- Digits alone or after a sign are read as signed decimal. -/
theorem parseImm_digits {d : Line} (hne : d ≠ []) (hd : d.all isDecDigit = true) :
    parseImm d = parseSigned 1 d ∧ parseImm ('+' :: d) = parseSigned 1 d ∧
      parseImm ('-' :: d) = parseSigned (-1) d := by
  have hx := not_hex_of_digits hd
  have hdec : ∀ sign, parseDecimal sign d = parseSigned sign d := fun sign => by
    obtain ⟨c, cs, rfl⟩ := List.exists_cons_of_ne_nil hne
    exact parseDecimal_digit sign cs (List.all_eq_true.mp hd c List.mem_cons_self)
  have hun := parseImm_unsigned hx (head?_ne_of_not_digit hd rfl) (head?_ne_of_not_digit hd rfl)
  exact ⟨hun.trans (hdec 1), (parseImm_plus d).trans (hdec 1), (parseImm_minus hx).trans (hdec (-1))⟩

/-- A token that is empty or not begun by a digit after at most one sign is worth 0. -/
theorem parseImm_nonNumeric {t : Line} (ht : ∀ c cs, t = c :: cs → isDecDigit c = false) :
    parseImm ('-' :: t) = .ok 0 ∧ parseImm ('+' :: t) = .ok 0 ∧
      (t.head? ≠ some '-' → t.head? ≠ some '+' → parseImm t = .ok 0) := by
  have hx : ¬ ∃ h, t = '0' :: 'x' :: h := fun ⟨h, heq⟩ => absurd (ht _ _ heq) (by decide)
  refine ⟨?_, ?_, fun hm hp => ?_⟩
  · rw [parseImm_minus hx, parseDecimal_not_digit _ ht]
  · rw [parseImm_plus, parseDecimal_not_digit _ ht]
  · rw [parseImm_unsigned hx hm hp, parseDecimal_not_digit _ ht]

/-- A digit followed by something else than digits is no decimal number. -/
theorem parseDecimal_junk (sign : Int) {c : Char} {cs : Line} (hc : isDecDigit c = true)
    (hcs : cs.all isDecDigit = false) : parseDecimal sign (c :: cs) = .error .invalidOperand := by
  rw [parseDecimal_digit sign cs hc, parseSigned_not_digits]
  rw [List.all_cons, hcs, Bool.and_false]

/-- Settles O34: one clause after another, by how the token begins. -/
theorem immediateTokensHaveTheirValues : Obligations.ImmediateTokensHaveTheirValues := by
  refine ⟨fun h hne hh hv => ?_, fun h hr => ?_, fun d hne hd => ?_, fun t ht =>
    parseImm_nonNumeric ht, fun c cs hc hcs => ⟨?_, fun hx => ?_⟩⟩
  · rw [parseImm_hex, parseImm_minus_hex, parseHexMagnitude_of_digits hne hh hv]
    exact ⟨rfl, rfl⟩
  · rw [parseImm_hex, parseImm_minus_hex, parseHexMagnitude_refused hr]
    exact ⟨rfl, rfl⟩
  · obtain ⟨hun, hplus, hminus⟩ := parseImm_digits hne hd
    rw [hun, hplus, hminus]
    refine ⟨fun hv => ?_, fun hv => ?_, fun hv => ?_, fun hv => ?_⟩
    · have hok := parseSigned_of_inRange (sign := 1) hne hd (immInRange_iff.mpr ⟨by omega, by omega⟩)
      rw [Int.one_mul] at hok
      exact ⟨hok, hok⟩
    · have herr := parseSigned_not_inRange (sign := 1) (d := d)
        (by rw [immInRange_iff]; omega)
      exact ⟨herr, herr⟩
    · have hok := parseSigned_of_inRange (sign := -1) hne hd
        (immInRange_iff.mpr ⟨by omega, by omega⟩)
      rwa [Int.neg_one_mul] at hok
    · exact parseSigned_not_inRange (by rw [immInRange_iff]; omega)
  · rw [parseImm_plus, parseDecimal_junk 1 hc hcs]
  · have hx' : ¬ ∃ h, c :: cs = '0' :: 'x' :: h := by
      rintro ⟨h, heq⟩
      obtain ⟨rfl, rfl⟩ := List.cons.inj heq
      exact hx ⟨rfl, rfl⟩
    have hsign : ∀ b, isDecDigit b = false → (c :: cs).head? ≠ some b := by
      rintro b hb heq
      rw [← Option.some.inj heq, hc] at hb
      exact absurd hb (by decide)
    rw [parseImm_unsigned hx' (hsign _ rfl) (hsign _ rfl), parseImm_minus hx']
    exact ⟨parseDecimal_junk 1 hc hcs, parseDecimal_junk (-1) hc hcs⟩

/-! ## The range of what is accepted -/

theorem parseOff_inRange {t : Line} {n : Int} (h : parseOff t = .ok n) : immInRange n = true := by
  obtain ⟨d, -, -, hr, -⟩ := parseOff_eq_ok.mp h
  exact hr

theorem parseHexMagnitude_inRange {h : Line} {m : Int} (hm : parseHexMagnitude h = .ok m) :
    immInRange m = true ∧ immInRange (-m) = true := by
  rw [parseHexMagnitude] at hm
  split at hm
  · next hc =>
    obtain ⟨-, -, hv⟩ := hc
    obtain rfl := Except.ok.inj hm
    simp only [Config.immMax] at hv
    exact ⟨immInRange_iff.mpr ⟨by omega, hv⟩, immInRange_iff.mpr ⟨by omega, by omega⟩⟩
  · exact nomatch hm

theorem parseDecimal_inRange {sign : Int} {t : Line} {n : Int} (h : parseDecimal sign t = .ok n) :
    immInRange n = true := by
  unfold parseDecimal at h
  split at h
  · obtain rfl := Except.ok.inj h
    rfl
  · split at h
    · obtain ⟨-, -, hr, -⟩ := parseSigned_eq_ok.mp h
      exact hr
    · obtain rfl := Except.ok.inj h
      rfl

theorem parseImm_inRange {t : Line} {n : Int} (h : parseImm t = .ok n) : immInRange n = true := by
  unfold parseImm at h
  split at h
  · exact (parseHexMagnitude_inRange h).1
  · next hex =>
    cases hm : parseHexMagnitude hex with
    | ok m =>
      rw [hm] at h
      obtain rfl := Except.ok.inj h
      exact (parseHexMagnitude_inRange hm).2
    | error e => rw [hm] at h; exact nomatch h
  · exact parseDecimal_inRange h
  · exact parseDecimal_inRange h
  · exact parseDecimal_inRange h

end Sys2Proof
end

section
/-! PROOF. The statements about a whole line (30_encoding.md sections 3 to 8): its class and its pieces
fix its decoding. -/

namespace Sys2Proof.Machine

/-! ## A line decodes by its class and its pieces -/

/-- The decoder's answer by the class of the mnemonic and the pieces of the operand string. -/
def decodePieces (c : Class) (ps : List Line) : Decoded :=
  match c with
  | .rType op => .ofParse (parseR op ps)
  | .iType op => .ofParse (parseI op ps)
  | .memType op => .ofParse (parseMem op ps)
  | .uType op => .ofParse (parseU op ps)
  | .unknown => .skipped

theorem decode_eq_decodePieces (l : Line) :
    decode l = decodePieces (classify (splitLine l).1) (pieces (splitLine l).2) := by
  unfold decode decodePieces
  cases classify (splitLine l).1 <;> rfl

theorem decode_space {mn : Line} (h : ' ' ∉ mn) (ops : Line) :
    decode (mn ++ ' ' :: ops) = decodePieces (classify mn) (pieces ops) := by
  rw [decode_eq_decodePieces, splitLine_space mn ops h]

theorem space_not_mem_of_mem_classTable : ∀ mn ∈ classTable.map Prod.fst, ' ' ∉ mn := by decide

/-- No known mnemonic holds a space. -/
theorem space_not_mem_of_classify {mn : Line} (h : classify mn ≠ .unknown) : ' ' ∉ mn := by
  by_contra hs
  exact h (classify_eq_unknown_of_not_mem fun hmem => space_not_mem_of_mem_classTable mn hmem hs)

/-- A line whose mnemonic is known decodes by that class. -/
theorem decode_known {mn : Line} {c : Class} (h : classify mn = c) (hc : c ≠ .unknown) (ops : Line) :
    decode (mn ++ ' ' :: ops) = decodePieces c (pieces ops) := by
  rw [decode_space (space_not_mem_of_classify (h ▸ hc)), h]

/-! ## Pieces -/

theorem operandToken_plain {t : Line} (h : OperandToken t) :
    ',' ∉ t ∧ ∀ c ∈ t, isWhitespace c = false := by
  refine ⟨fun hc => (h _ hc).1 rfl, fun c hc => ?_⟩
  rw [← Bool.not_eq_true, isWhitespace_iff]
  exact (h c hc).2

theorem pieces_token {t : Line} (h : OperandToken t) : pieces t = [t] := by
  obtain ⟨hcomma, hspace⟩ := operandToken_plain h
  rw [pieces, removeWhitespace_eq_self t hspace, splitCommas_noComma t hcomma]

theorem pieces_cons_token {t : Line} (h : OperandToken t) (rest : Line) :
    pieces (t ++ ',' :: rest) = t :: pieces rest := by
  obtain ⟨hcomma, hspace⟩ := operandToken_plain h
  have hrest : removeWhitespace (t ++ ',' :: rest) = t ++ ',' :: removeWhitespace rest := by
    rw [← removeWhitespace_eq_self t hspace]
    simp [removeWhitespace, isWhitespace]
  rw [pieces, hrest, splitCommas_append _ _ hcomma, pieces]

theorem operandToken_offset {o b : Line} (ho : OperandToken o) (hb : OperandToken b) :
    OperandToken (o ++ '(' :: (b ++ [')'])) := by
  intro c hc
  simp only [List.mem_append, List.mem_cons, List.not_mem_nil, or_false] at hc
  obtain hc | rfl | hc | rfl := hc
  · exact ho c hc
  · decide
  · exact hb c hc
  · decide

/-! ## The shape `o(b)` -/

theorem bne_of_not_mem {c : Char} {s : Line} (h : c ∉ s) : ∀ d ∈ s, (d != c) = true := by
  intro d hd
  rw [bne_iff_ne]
  rintro rfl
  exact h hd

theorem splitOffset_mk {o b : Line} (ho : '(' ∉ o ∧ ')' ∉ o) (hb : '(' ∉ b ∧ ')' ∉ b) :
    splitOffset (o ++ '(' :: (b ++ [')'])) = some (o, b) := by
  have hpos := bne_of_not_mem ho.1
  have hlast : (o ++ '(' :: (b ++ [')'])).getLast? = some ')' := by
    rw [← List.cons_append, ← List.append_assoc, List.getLast?_concat]
  have hopen : (o ++ '(' :: (b ++ [')'])).count '(' = 1 := by
    simp [List.count_eq_zero.mpr ho.1, List.count_eq_zero.mpr hb.1]
  have hclose : (o ++ '(' :: (b ++ [')'])).count ')' = 1 := by
    simp [List.count_eq_zero.mpr ho.2, List.count_eq_zero.mpr hb.2]
  rw [splitOffset, if_pos ⟨hopen, hclose, hlast⟩]
  simp [List.takeWhile_append_of_pos hpos, List.dropWhile_append_of_pos hpos]

theorem exists_of_splitOffset {t : Line} {p : Line × Line} (h : splitOffset t = some p) :
    ∃ o b, t = o ++ '(' :: (b ++ [')']) ∧ ('(' ∉ o ∧ ')' ∉ o) ∧ ('(' ∉ b ∧ ')' ∉ b) := by
  rw [splitOffset] at h
  split at h
  · next hshape =>
    obtain ⟨hopen, hclose, hlast⟩ := hshape
    obtain ⟨t', rfl⟩ := List.getLast?_eq_some_iff.mp hlast
    have hmem : '(' ∈ t' := by
      have hcount : 0 < (t' ++ [')']).count '(' := by omega
      simpa using List.count_pos_iff.mp hcount
    obtain ⟨o, b, rfl⟩ := List.append_of_mem hmem
    have hopen' : o.count '(' + (b.count '(' + 1) = 1 := by simpa using hopen
    have hclose' : o.count ')' + (b.count ')' + 1) = 1 := by simpa using hclose
    exact ⟨o, b, by simp, ⟨List.count_eq_zero.mp (by omega), List.count_eq_zero.mp (by omega)⟩,
      List.count_eq_zero.mp (by omega), List.count_eq_zero.mp (by omega)⟩
  · exact nomatch h

/-! ## Token parses in a row -/

/-- Three token parses, first to last, and the instruction of their values. -/
def threeOperands {α β γ : Type} (f : α → β → γ → Instr) (x : Except DecodeError α)
    (y : Except DecodeError β) (z : Except DecodeError γ) : Except DecodeError Instr := do
  let a ← x
  let b ← y
  let c ← z
  .ok (f a b c)

/-- Two token parses, first to last, and the instruction of their values. -/
def twoOperands {α β : Type} (f : α → β → Instr) (x : Except DecodeError α)
    (y : Except DecodeError β) : Except DecodeError Instr := do
  let a ← x
  let b ← y
  .ok (f a b)

theorem parseR_tokens (op : ROp) (t1 t2 t3 : Line) : parseR op [t1, t2, t3] =
    threeOperands op.instr (parseReg t1) (parseReg t2) (parseReg t3) := rfl

theorem parseI_tokens (op : IOp) (t1 t2 t3 : Line) : parseI op [t1, t2, t3] =
    threeOperands op.instr (parseReg t1) (parseReg t2) (parseImm t3) := rfl

theorem parseMem_tokens (op : MemOp) (t1 : Line) {o b : Line} (ho : '(' ∉ o ∧ ')' ∉ o)
    (hb : '(' ∉ b ∧ ')' ∉ b) : parseMem op [t1, o ++ '(' :: (b ++ [')'])] =
      threeOperands op.instr (parseReg t1) (parseOff o) (parseReg b) := by
  simp only [parseMem, splitOffset_mk ho hb]
  rfl

theorem parseU_tokens (op : UOp) (t1 t2 : Line) :
    parseU op [t1, t2] = twoOperands op.instr (parseReg t1) (parseImm t2) := rfl

theorem ofParse_eq_error {r : Except DecodeError Instr} {e : DecodeError} :
    Decoded.ofParse r = .error e ↔ r = .error e := by
  cases r <;> simp [Decoded.ofParse]

theorem ofParse_refused {r : Except DecodeError Instr} (hr : OnlyInvalidOperand r)
    (h : ∀ i, r ≠ .ok i) : Decoded.ofParse r = .error .invalidOperand := by
  cases r with
  | ok i => exact absurd rfl (h i)
  | error e => rw [hr e rfl, Decoded.ofParse]

section
variable {α β γ : Type} {x : Except DecodeError α} {y : Except DecodeError β}
  {z : Except DecodeError γ}

theorem threeOperands_only (f : α → β → γ → Instr) (hx : OnlyInvalidOperand x)
    (hy : OnlyInvalidOperand y) (hz : OnlyInvalidOperand z) :
    OnlyInvalidOperand (threeOperands f x y z) :=
  hx.bind fun _ => hy.bind fun _ => hz.bind fun _ => onlyInvalidOperand_ok _

theorem twoOperands_only (f : α → β → Instr) (hx : OnlyInvalidOperand x)
    (hy : OnlyInvalidOperand y) : OnlyInvalidOperand (twoOperands f x y) :=
  hx.bind fun _ => hy.bind fun _ => onlyInvalidOperand_ok _

theorem ofParse_threeOperands (f : α → β → γ → Instr) {a : α} {b : β} {c : γ} (hx : x = .ok a)
    (hy : y = .ok b) (hz : z = .ok c) :
    Decoded.ofParse (threeOperands f x y z) = .instr (f a b c) := by
  rw [hx, hy, hz]
  rfl

theorem ofParse_twoOperands (f : α → β → Instr) {a : α} {b : β} (hx : x = .ok a) (hy : y = .ok b) :
    Decoded.ofParse (twoOperands f x y) = .instr (f a b) := by
  rw [hx, hy]
  rfl

theorem ofParse_threeOperands_refused (f : α → β → γ → Instr) (hx : OnlyInvalidOperand x)
    (hy : OnlyInvalidOperand y) (hz : OnlyInvalidOperand z)
    (h : ∀ a b c, x = .ok a → y = .ok b → z = .ok c → False) :
    Decoded.ofParse (threeOperands f x y z) = .error .invalidOperand := by
  refine ofParse_refused (threeOperands_only f hx hy hz) fun i hi => ?_
  obtain ⟨a, ha, hi⟩ := bind_eq_ok hi
  obtain ⟨b, hb, hi⟩ := bind_eq_ok hi
  obtain ⟨c, hc, -⟩ := bind_eq_ok hi
  exact h a b c ha hb hc

theorem ofParse_twoOperands_refused (f : α → β → Instr) (hx : OnlyInvalidOperand x)
    (hy : OnlyInvalidOperand y) (h : ∀ a b, x = .ok a → y = .ok b → False) :
    Decoded.ofParse (twoOperands f x y) = .error .invalidOperand := by
  refine ofParse_refused (twoOperands_only f hx hy) fun i hi => ?_
  obtain ⟨a, ha, hi⟩ := bind_eq_ok hi
  obtain ⟨b, hb, -⟩ := bind_eq_ok hi
  exact h a b ha hb

end

theorem parseR_only (op : ROp) (t1 t2 t3 : Line) : OnlyInvalidOperand (parseR op [t1, t2, t3]) :=
  threeOperands_only _ (parseReg_only t1) (parseReg_only t2) (parseReg_only t3)

theorem parseI_only (op : IOp) (t1 t2 t3 : Line) : OnlyInvalidOperand (parseI op [t1, t2, t3]) :=
  threeOperands_only _ (parseReg_only t1) (parseReg_only t2) (parseImm_only t3)

theorem parseMem_only (op : MemOp) (t1 : Line) {o b : Line} (ho : '(' ∉ o ∧ ')' ∉ o)
    (hb : '(' ∉ b ∧ ')' ∉ b) : OnlyInvalidOperand (parseMem op [t1, o ++ '(' :: (b ++ [')'])]) :=
  parseMem_tokens op t1 ho hb ▸
    threeOperands_only _ (parseReg_only t1) (parseOff_only o) (parseReg_only b)

theorem parseU_only (op : UOp) (t1 t2 : Line) : OnlyInvalidOperand (parseU op [t1, t2]) :=
  twoOperands_only _ (parseReg_only t1) (parseImm_only t2)

/-! ## Shapes -/

theorem parseR_eq_invalidInstruction {op : ROp} {ps : List Line} :
    parseR op ps = .error .invalidInstruction ↔ ps.length ≠ 3 := by
  constructor
  · intro h hlen
    obtain ⟨t1, t2, t3, rfl⟩ := List.length_eq_three.mp hlen
    exact (parseR_only op t1 t2 t3).ne_invalidInstruction h
  · intro hlen
    unfold parseR
    split
    · exact absurd rfl hlen
    · rfl

theorem parseI_eq_invalidInstruction {op : IOp} {ps : List Line} :
    parseI op ps = .error .invalidInstruction ↔ ps.length ≠ 3 := by
  constructor
  · intro h hlen
    obtain ⟨t1, t2, t3, rfl⟩ := List.length_eq_three.mp hlen
    exact (parseI_only op t1 t2 t3).ne_invalidInstruction h
  · intro hlen
    unfold parseI
    split
    · exact absurd rfl hlen
    · rfl

theorem parseU_eq_invalidInstruction {op : UOp} {ps : List Line} :
    parseU op ps = .error .invalidInstruction ↔ ps.length ≠ 2 := by
  constructor
  · intro h hlen
    obtain ⟨t1, t2, rfl⟩ := List.length_eq_two.mp hlen
    exact (parseU_only op t1 t2).ne_invalidInstruction h
  · intro hlen
    unfold parseU
    split
    · exact absurd rfl hlen
    · rfl

theorem parseMem_eq_invalidInstruction {op : MemOp} {ps : List Line} :
    parseMem op ps = .error .invalidInstruction ↔
      ¬ ∃ t1 o b, ps = [t1, o ++ '(' :: (b ++ [')'])] ∧ '(' ∉ o ∧ ')' ∉ o ∧ '(' ∉ b ∧ ')' ∉ b := by
  constructor
  · rintro h ⟨t1, o, b, rfl, ho, ho', hb, hb'⟩
    exact (parseMem_only op t1 ⟨ho, ho'⟩ ⟨hb, hb'⟩).ne_invalidInstruction h
  · intro hshape
    unfold parseMem
    split
    · split
      · next hs =>
        obtain ⟨o, b, rfl, ⟨ho, ho'⟩, hb, hb'⟩ := exists_of_splitOffset hs
        exact absurd ⟨_, o, b, rfl, ho, ho', hb, hb'⟩ hshape
      · rfl
    · rfl

/-- Settles O32: with the right shape only tokens are left to refuse, and they refuse otherwise. -/
theorem wrongShapeIsInvalidInstruction : Obligations.WrongShapeIsInvalidInstruction := by
  intro l
  rw [decode_eq_decodePieces]
  cases classify (splitLine l).1 with
  | rType op => exact ofParse_eq_error.trans parseR_eq_invalidInstruction
  | iType op => exact ofParse_eq_error.trans parseI_eq_invalidInstruction
  | memType op => exact ofParse_eq_error.trans parseMem_eq_invalidInstruction
  | uType op => exact ofParse_eq_error.trans parseU_eq_invalidInstruction
  | unknown => exact iff_of_false (fun h => nomatch h) id

/-! ## Well-formedness of what is decoded -/

theorem ROp.wf_instr (op : ROp) (rd rs1 rs2 : Reg) : (op.instr rd rs1 rs2).wf = true := by
  cases op <;> rfl

theorem IOp.wf_instr (op : IOp) (rd rs1 : Reg) (imm : Int) :
    (op.instr rd rs1 imm).wf = immInRange imm := by
  cases op <;> rfl

theorem MemOp.wf_instr (op : MemOp) (rd : Reg) (off : Int) (rs2 : Reg) :
    (op.instr rd off rs2).wf = immInRange off := by
  cases op <;> rfl

theorem UOp.wf_instr (op : UOp) (rd : Reg) (imm : Int) : (op.instr rd imm).wf = immInRange imm := by
  cases op
  rfl

/-- Settles O36: the immediate or offset is a token's value, which is in range. -/
theorem decodedInstructionsAreWellFormed : Obligations.DecodedInstructionsAreWellFormed := by
  intro l i h
  obtain ⟨op, -, hp⟩ | ⟨op, -, hp⟩ | ⟨op, -, hp⟩ | ⟨op, -, hp⟩ := decode_eq_instr h
  · obtain ⟨_, _, _, _, _, _, -, -, -, -, rfl⟩ := parseR_eq_ok hp
    exact ROp.wf_instr _ _ _ _
  · obtain ⟨_, _, _, _, _, _, -, -, -, himm, rfl⟩ := parseI_eq_ok hp
    rw [IOp.wf_instr, parseImm_inRange himm]
  · obtain ⟨_, _, _, _, _, _, _, -, -, -, hoff, -, rfl⟩ := parseMem_eq_ok hp
    rw [MemOp.wf_instr, parseOff_inRange hoff]
  · obtain ⟨_, _, _, _, -, -, himm, rfl⟩ := parseU_eq_ok hp
    rw [UOp.wf_instr, parseImm_inRange himm]

/-! ## Whitespace -/

theorem removeWhitespace_eq_filter (s : Line) : removeWhitespace s = s.filter (fun c =>
    c ∉ [Char.ofNat 0x20, Char.ofNat 0x09, Char.ofNat 0x0A, Char.ofNat 0x0B, Char.ofNat 0x0C,
      Char.ofNat 0x0D]) := by
  refine List.filter_congr fun c _ => ?_
  rw [Bool.eq_iff_iff, decide_eq_true_iff, ← isWhitespace_iff]
  simp

theorem pieces_insert_whitespace {c : Char} (hc : isWhitespace c = true) (u v : Line) :
    pieces (u ++ c :: v) = pieces (u ++ v) := by
  simp [pieces, removeWhitespace, hc]

/-- A character put before the first piece stays there. -/
theorem splitCommas_cons {c : Char} (hc : c ≠ ',') {s p : Line} {ps : List Line}
    (h : splitCommas s = p :: ps) : splitCommas (c :: s) = (c :: p) :: ps := by
  simp only [splitCommas, hc, if_false, h]

/-- No register token follows another character than whitespace: before `x1` an `x` is no digit. -/
theorem parseReg_cons_x1 (c : Char) (r : Reg) : parseReg (c :: "x1".toList) ≠ .ok r := by
  intro h
  obtain ⟨d, ht, -, hd, -⟩ := parseReg_eq_ok.mp h
  obtain ⟨-, rfl⟩ := List.cons.inj ht
  exact absurd (hd 'x' (by decide)) (by decide)

theorem parseR_spoiled (op : ROp) (c : Char) (i : Instr) :
    parseR op (splitCommas (c :: "x1,x2,x3".toList)) ≠ .ok i := by
  have hps : splitCommas "x1,x2,x3".toList = ["x1".toList, "x2".toList, "x3".toList] := by decide
  intro h
  obtain ⟨t1, t2, t3, rd, rs1, rs2, hpieces, hrd, -⟩ := parseR_eq_ok h
  by_cases hc : c = ','
  · subst hc
    have hlen : (splitCommas (',' :: "x1,x2,x3".toList)).length = 4 := by decide
    rw [hpieces] at hlen
    exact nomatch hlen
  · rw [splitCommas_cons hc hps] at hpieces
    obtain ⟨rfl, -⟩ := List.cons.inj hpieces
    exact parseReg_cons_x1 c rd hrd

/-- Settles O31: an inserted whitespace character leaves the pieces as they are, and any other
character stays in front of the first of them. -/
theorem operandWhitespaceIsIgnored : Obligations.OperandWhitespaceIsIgnored := by
  refine ⟨removeWhitespace_eq_filter, fun mn u v c hmn hc => ?_, fun c i hc h => ?_⟩
  · rw [decode_space hmn, decode_space hmn, pieces_insert_whitespace (isWhitespace_iff.mpr hc)]
  · rw [← isWhitespace_iff] at hc
    have hrest : removeWhitespace (c :: "x1,x2,x3".toList) = c :: "x1,x2,x3".toList :=
      (List.filter_cons_of_pos (by simpa using hc)).trans (congrArg _ (by decide))
    rw [decode_known (c := .rType .add) (by decide) (by decide), pieces, hrest] at h
    exact parseR_spoiled .add c i (ofParse_eq_instr.mp h)

/-! ## Lines of the right shape -/

section
variable {mn t1 t2 t3 : Line} (h1 : OperandToken t1) (h2 : OperandToken t2)
include h1 h2

theorem decode_rType_line {op : ROp} (h : classify mn = .rType op) (h3 : OperandToken t3) :
    decode (mn ++ ' ' :: (t1 ++ ',' :: (t2 ++ ',' :: t3))) = .ofParse (parseR op [t1, t2, t3]) := by
  rw [decode_known h (by simp), pieces_cons_token h1, pieces_cons_token h2, pieces_token h3,
    decodePieces]

theorem decode_iType_line {op : IOp} (h : classify mn = .iType op) (h3 : OperandToken t3) :
    decode (mn ++ ' ' :: (t1 ++ ',' :: (t2 ++ ',' :: t3))) = .ofParse (parseI op [t1, t2, t3]) := by
  rw [decode_known h (by simp), pieces_cons_token h1, pieces_cons_token h2, pieces_token h3,
    decodePieces]

theorem decode_memType_line {op : MemOp} (h : classify mn = .memType op) :
    decode (mn ++ ' ' :: (t1 ++ ',' :: t2)) = .ofParse (parseMem op [t1, t2]) := by
  rw [decode_known h (by simp), pieces_cons_token h1, pieces_token h2, decodePieces]

theorem decode_uType_line {op : UOp} (h : classify mn = .uType op) :
    decode (mn ++ ' ' :: (t1 ++ ',' :: t2)) = .ofParse (parseU op [t1, t2]) := by
  rw [decode_known h (by simp), pieces_cons_token h1, pieces_token h2, decodePieces]

end

theorem rType_mnemonics : ∀ p ∈ [("add".toList, Instr.add), ("sub".toList, Instr.sub),
    ("and".toList, Instr.and), ("or".toList, Instr.or), ("xor".toList, Instr.xor),
    ("nor".toList, Instr.nor), ("slt".toList, Instr.slt), ("sll".toList, Instr.sll),
    ("sra".toList, Instr.sra)], ∃ op : ROp, classify p.1 = .rType op ∧ p.2 = op.instr := by
  simp only [List.forall_mem_cons]
  exact ⟨⟨.add, rfl, rfl⟩, ⟨.sub, rfl, rfl⟩, ⟨.and, rfl, rfl⟩, ⟨.or, rfl, rfl⟩, ⟨.xor, rfl, rfl⟩,
    ⟨.nor, rfl, rfl⟩, ⟨.slt, rfl, rfl⟩, ⟨.sll, rfl, rfl⟩, ⟨.sra, rfl, rfl⟩, by simp⟩

theorem iType_mnemonics : ∀ p ∈ [("addi".toList, Instr.addi), ("andi".toList, Instr.andi),
    ("ori".toList, Instr.ori), ("xori".toList, Instr.xori), ("slti".toList, Instr.slti)],
    ∃ op : IOp, classify p.1 = .iType op ∧ p.2 = op.instr := by
  simp only [List.forall_mem_cons]
  exact ⟨⟨.addi, rfl, rfl⟩, ⟨.andi, rfl, rfl⟩, ⟨.ori, rfl, rfl⟩, ⟨.xori, rfl, rfl⟩,
    ⟨.slti, rfl, rfl⟩, by simp⟩

theorem memType_mnemonics : ∀ p ∈ [("lw".toList, Instr.lw), ("lb".toList, Instr.lb),
    ("sw".toList, Instr.sw), ("sb".toList, Instr.sb)],
    ∃ op : MemOp, classify p.1 = .memType op ∧ p.2 = op.instr := by
  simp only [List.forall_mem_cons]
  exact ⟨⟨.lw, rfl, rfl⟩, ⟨.lb, rfl, rfl⟩, ⟨.sw, rfl, rfl⟩, ⟨.sb, rfl, rfl⟩, by simp⟩

/-- Settles O51: a line of the right shape has its tokens as pieces, and they are parsed first to
last. -/
theorem wellShapedLinesDecodeByTheirTokens : Obligations.WellShapedLinesDecodeByTheirTokens := by
  refine ⟨fun p hp t1 t2 t3 h1 h2 h3 => ?_, fun p hp t1 t2 t3 h1 h2 h3 => ?_,
    fun p hp t1 o b h1 ho hb hoo hoc hbo hbc => ?_, fun t1 t2 h1 h2 => ?_⟩
  · obtain ⟨op, hc, hop⟩ := rType_mnemonics p hp
    rw [decode_rType_line h1 h2 hc h3, hop, parseR_tokens]
    split
    · next h1 h2 h3 => exact ofParse_threeOperands _ h1 h2 h3
    · next hne =>
      exact ofParse_threeOperands_refused _ (parseReg_only t1) (parseReg_only t2)
        (parseReg_only t3) hne
  · obtain ⟨op, hc, hop⟩ := iType_mnemonics p hp
    rw [decode_iType_line h1 h2 hc h3, hop, parseI_tokens]
    split
    · next h1 h2 h3 => exact ofParse_threeOperands _ h1 h2 h3
    · next hne =>
      exact ofParse_threeOperands_refused _ (parseReg_only t1) (parseReg_only t2)
        (parseImm_only t3) hne
  · obtain ⟨op, hc, hop⟩ := memType_mnemonics p hp
    rw [decode_memType_line h1 (operandToken_offset ho hb) hc, hop,
      parseMem_tokens op t1 ⟨hoo, hoc⟩ ⟨hbo, hbc⟩]
    split
    · next h1 h2 h3 => exact ofParse_threeOperands _ h1 h2 h3
    · next hne =>
      exact ofParse_threeOperands_refused _ (parseReg_only t1) (parseOff_only o)
        (parseReg_only b) hne
  · rw [decode_uType_line (op := .lui) h1 h2 rfl, parseU_tokens]
    split
    · next h1 h2 => exact ofParse_twoOperands _ h1 h2
    · next hne => exact ofParse_twoOperands_refused _ (parseReg_only t1) (parseImm_only t2) hne

/-! ## The encoder's text -/

theorem isDecDigit_token {c : Char} (h : isDecDigit c = true) :
    c ≠ ',' ∧ c ∉ [Char.ofNat 0x20, Char.ofNat 0x09, Char.ofNat 0x0A, Char.ofNat 0x0B,
      Char.ofNat 0x0C, Char.ofNat 0x0D] := by
  obtain ⟨hcomma, -, -, -, -, -, hspace⟩ := digit_plain h
  exact ⟨hcomma, fun hc => by simp [isWhitespace_iff.mpr hc] at hspace⟩

theorem operandToken_natText (n : Nat) : OperandToken (natText n) :=
  fun c hc => isDecDigit_token (natText_digits n c hc)

theorem operandToken_regText (r : Reg) : OperandToken (regText r) :=
  List.forall_mem_cons.mpr ⟨by decide, operandToken_natText r.val⟩

theorem operandToken_intText (n : Int) : OperandToken (intText n) := by
  rw [intText]
  split
  · exact List.forall_mem_cons.mpr ⟨by decide, operandToken_natText _⟩
  · exact operandToken_natText _

theorem not_mem_natText {c : Char} (hc : isDecDigit c = false) (n : Nat) : c ∉ natText n :=
  fun h => by simp [natText_digits n c h] at hc

theorem paren_not_mem_regText (r : Reg) : '(' ∉ regText r ∧ ')' ∉ regText r :=
  ⟨List.not_mem_cons_of_ne_of_not_mem (by decide) (not_mem_natText rfl _),
    List.not_mem_cons_of_ne_of_not_mem (by decide) (not_mem_natText rfl _)⟩

theorem paren_not_mem_intText (n : Int) : '(' ∉ intText n ∧ ')' ∉ intText n := by
  rw [intText]
  split
  · exact ⟨List.not_mem_cons_of_ne_of_not_mem (by decide) (not_mem_natText rfl _),
      List.not_mem_cons_of_ne_of_not_mem (by decide) (not_mem_natText rfl _)⟩
  · exact ⟨not_mem_natText rfl _, not_mem_natText rfl _⟩

/-- A parser that reads digits alone and after a minus as signed decimal reads the encoder's text of
an integer. -/
theorem parse_intText {parse : Line → Except DecodeError Int}
    (hpos : ∀ d, d ≠ [] → d.all isDecDigit = true → parse d = parseSigned 1 d)
    (hneg : ∀ d, d ≠ [] → d.all isDecDigit = true → parse ('-' :: d) = parseSigned (-1) d)
    {n : Int} (hn : immInRange n = true) : parse (intText n) = .ok n := by
  have hne := natText_ne_nil n.natAbs
  have hd := List.all_eq_true.mpr (natText_digits n.natAbs)
  have hlt : n.natAbs < 10 ^ 10 := by
    have := immInRange_iff.mp hn
    omega
  rw [intText]
  split
  · have hval : -1 * (n.natAbs : Int) = n := by omega
    rw [hneg _ hne hd, parseSigned_natText _ _ hlt (by rwa [hval]), hval]
  · have hval : 1 * (n.natAbs : Int) = n := by omega
    rw [hpos _ hne hd, parseSigned_natText _ _ hlt (by rwa [hval]), hval]

theorem parseImm_intText {n : Int} (hn : immInRange n = true) : parseImm (intText n) = .ok n := by
  refine parse_intText (fun d hne hd => ?_) (fun d hne hd => ?_) hn
  · exact (parseImm_digits hne hd).1
  · exact (parseImm_digits hne hd).2.2

theorem parseOff_intText {n : Int} (hn : immInRange n = true) : parseOff (intText n) = .ok n :=
  parse_intText (fun _ _ hd => parseOff_digits hd) (fun d _ _ => parseOff_minus d) hn

/-! ## Decoding what the encoder wrote -/

theorem decode_lineOf3_regs {mn : Line} {op : ROp} (h : classify mn = .rType op) (rd rs1 rs2 : Reg) :
    decode (lineOf3 mn (regText rd) (regText rs1) (regText rs2)) = .instr (op.instr rd rs1 rs2) := by
  rw [lineOf3, decode_rType_line (operandToken_regText rd) (operandToken_regText rs1) h
    (operandToken_regText rs2), parseR_tokens]
  exact ofParse_threeOperands _ (parseReg_regText rd) (parseReg_regText rs1) (parseReg_regText rs2)

theorem decode_lineOf3_imm {mn : Line} {op : IOp} (h : classify mn = .iType op) (rd rs1 : Reg)
    {imm : Int} (hi : immInRange imm = true) :
    decode (lineOf3 mn (regText rd) (regText rs1) (intText imm)) = .instr (op.instr rd rs1 imm) := by
  rw [lineOf3, decode_iType_line (operandToken_regText rd) (operandToken_regText rs1) h
    (operandToken_intText imm), parseI_tokens]
  exact ofParse_threeOperands _ (parseReg_regText rd) (parseReg_regText rs1) (parseImm_intText hi)

theorem decode_lineOf2_offset {mn : Line} {op : MemOp} (h : classify mn = .memType op) (rd : Reg)
    {off : Int} (rs2 : Reg) (hi : immInRange off = true) :
    decode (lineOf2 mn (regText rd) (offsetText off rs2)) = .instr (op.instr rd off rs2) := by
  have htoken : OperandToken (offsetText off rs2) :=
    operandToken_offset (operandToken_intText off) (operandToken_regText rs2)
  rw [lineOf2, decode_memType_line (operandToken_regText rd) htoken h, offsetText,
    parseMem_tokens op _ (paren_not_mem_intText off) (paren_not_mem_regText rs2)]
  exact ofParse_threeOperands _ (parseReg_regText rd) (parseOff_intText hi) (parseReg_regText rs2)

theorem decode_lineOf2_imm {mn : Line} {op : UOp} (h : classify mn = .uType op) (rd : Reg)
    {imm : Int} (hi : immInRange imm = true) :
    decode (lineOf2 mn (regText rd) (intText imm)) = .instr (op.instr rd imm) := by
  rw [lineOf2, decode_uType_line (operandToken_regText rd) (operandToken_intText imm) h,
    parseU_tokens]
  exact ofParse_twoOperands _ (parseReg_regText rd) (parseImm_intText hi)

/-- Settles O37: each constructor's line is that of its format, with the mnemonic of its operation. -/
theorem decodeOfEncodeIsTheInstruction : Obligations.DecodeOfEncodeIsTheInstruction := by
  intro i hwf
  cases i with
  | add => exact decode_lineOf3_regs (op := .add) rfl _ _ _
  | sub => exact decode_lineOf3_regs (op := .sub) rfl _ _ _
  | and => exact decode_lineOf3_regs (op := .and) rfl _ _ _
  | or => exact decode_lineOf3_regs (op := .or) rfl _ _ _
  | xor => exact decode_lineOf3_regs (op := .xor) rfl _ _ _
  | nor => exact decode_lineOf3_regs (op := .nor) rfl _ _ _
  | slt => exact decode_lineOf3_regs (op := .slt) rfl _ _ _
  | sll => exact decode_lineOf3_regs (op := .sll) rfl _ _ _
  | sra => exact decode_lineOf3_regs (op := .sra) rfl _ _ _
  | addi => exact decode_lineOf3_imm (op := .addi) rfl _ _ hwf
  | andi => exact decode_lineOf3_imm (op := .andi) rfl _ _ hwf
  | ori => exact decode_lineOf3_imm (op := .ori) rfl _ _ hwf
  | xori => exact decode_lineOf3_imm (op := .xori) rfl _ _ hwf
  | slti => exact decode_lineOf3_imm (op := .slti) rfl _ _ hwf
  | lw => exact decode_lineOf2_offset (op := .lw) rfl _ _ hwf
  | lb => exact decode_lineOf2_offset (op := .lb) rfl _ _ hwf
  | sw => exact decode_lineOf2_offset (op := .sw) rfl _ _ hwf
  | sb => exact decode_lineOf2_offset (op := .sb) rfl _ _ hwf
  | lui => exact decode_lineOf2_imm (op := .lui) rfl _ hwf

/-- Settles O38. -/
theorem writtenLinesDecodeAsTheSpecSays : Obligations.WrittenLinesDecodeAsTheSpecSays :=
  ⟨Tests.test_decode_add, by decide, Tests.test_decode_sw, Tests.test_decode_lui⟩

end Sys2Proof.Machine
end

section
/-! PROOF. The statements about steps and runs (60_exceptions.md, 70_reset_and_hazards.md): what a line
answers follows from its decoding, and a run is one step after another. -/

namespace Sys2Proof.Machine

/-! ## Lines that are skipped -/

theorem splitLine_noSpace {mn : Line} (h : ' ' ∉ mn) : splitLine mn = (mn, []) := by
  have hpos := bne_of_not_mem h
  rw [splitLine, List.takeWhile_eq_self_iff.mpr hpos, List.dropWhile_eq_nil_iff.mpr hpos,
    List.drop_nil]

theorem step_of_skipped {s : State} {l : Line} {rest : List Line} (hs : s.lines = l :: rest)
    (h : decode l = .skipped) : step s = .next ((s.withLines rest).returning .skipped) := by
  rw [step_cons hs, execLine_skipped _ h]

theorem step_of_instr {s : State} {l : Line} {rest : List Line} {i : Instr}
    (hs : s.lines = l :: rest) (h : decode l = .instr i) : step s = exec i (s.withLines rest) := by
  rw [step_cons hs, execLine_instr _ h]

theorem step_of_error {s : State} {l : Line} {rest : List Line} {e : DecodeError}
    (hs : s.lines = l :: rest) (h : decode l = .error e) :
    step s = .fault (Fault.ofDecodeError e) := by
  rw [step_cons hs, execLine_error _ h]

/-- Settles O30: with or without an operand string the mnemonic is the same. -/
theorem unknownMnemonicIsSkipped : Obligations.UnknownMnemonicIsSkipped := by
  intro mn ops rest s hmn hc hs
  have hskip : ∃ l, s.lines = l :: rest ∧ decode l = .skipped := by
    obtain hs | hs := hs
    · exact ⟨_, hs, decode_eq_skipped.mpr (by rwa [splitLine_space mn ops hmn])⟩
    · exact ⟨_, hs, decode_eq_skipped.mpr (by rwa [splitLine_noSpace hmn])⟩
  obtain ⟨l, hl, hd⟩ := hskip
  exact ⟨_, step_of_skipped hl hd, rfl, rfl, rfl, rfl, rfl⟩

/-! ## One step -/

theorem decode_of_decodeTableWord {nbits w : Nat} {i : Instr} (h : decodeTableWord nbits w = some i) :
    decode (lineOfWord nbits w) = .instr i := by
  unfold decodeTableWord at h
  split at h
  · next hd => rw [hd, Option.some.inj h]
  · exact nomatch h
  · exact nomatch h

/-- Settles O39. -/
theorem stepRunsDecodedInstruction : Obligations.StepRunsDecodedInstruction := by
  refine ⟨fun s l rest hs => ⟨fun i => step_of_instr hs, step_of_skipped hs, step_of_error hs,
    step_of_error hs⟩, fun s nbits w i h => ?_, fun s => step_nil⟩
  exact step_of_instr (withNextLine_lines s _) (decode_of_decodeTableWord h)

/-! ## One line as the caller sees it -/

theorem stepText_instr {l : Line} {i : Instr} (s : State) (h : decode l = .instr i) :
    stepText l s = (returnedCode (exec i s), stateAfter s (exec i s)) := by
  rw [stepText, execLine_instr s h]

theorem stepText_skipped {l : Line} (s : State) (h : decode l = .skipped) :
    stepText l s = (some .skipped, s.returning .skipped) := by
  rw [stepText, execLine_skipped s h]
  rfl

theorem stepText_error {l : Line} {e : DecodeError} (s : State) (h : decode l = .error e) :
    stepText l s = (some (Fault.ofDecodeError e).code, s) := by
  rw [stepText, execLine_error s h]
  rfl

/-- An instruction either answers a next state or raises the range error (60_exceptions.md R105). -/
theorem exec_next_or_fault (i : Instr) (s : State) :
    (∃ t, exec i s = .next t) ∨ exec i s = .fault .addressOutOfRange := by
  by_cases h : ∃ t, exec i s = .next t
  · exact .inl h
  · exact .inr (exec_not_next (not_exists.mp h)).1

/-- Every answer to a decoded line: OK with `x0` at 0, or the range error with nothing changed. -/
theorem stepText_instr_cases {l : Line} {i : Instr} (s : State) (h : decode l = .instr i) :
    (∃ t, stepText l s = (some .ok, t) ∧ t.reg 0 = 0) ∨
    (exec i s = .fault .addressOutOfRange ∧ stepText l s = (some .addressOutOfRange, s)) := by
  rw [stepText_instr s h]
  obtain ⟨t, ht⟩ | hf := exec_next_or_fault i s
  · obtain ⟨hok, hzero⟩ := exec_next_ok ht
    exact .inl ⟨t, by rw [ht, returnedCode, stateAfter, hok], hzero⟩
  · exact .inr ⟨hf, by rw [hf]; rfl⟩

theorem ROp.exec_next (op : ROp) (rd rs1 rs2 : Reg) (s : State) :
    ∃ t, exec (op.instr rd rs1 rs2) s = .next t := by
  cases op <;> exact ⟨_, rfl⟩

theorem IOp.exec_next (op : IOp) (rd rs1 : Reg) (imm : Int) (s : State) :
    ∃ t, exec (op.instr rd rs1 imm) s = .next t := by
  cases op <;> exact ⟨_, rfl⟩

theorem UOp.exec_next (op : UOp) (rd : Reg) (imm : Int) (s : State) :
    ∃ t, exec (op.instr rd imm) s = .next t := by
  cases op
  exact ⟨_, rfl⟩

/-- Only a MEM_TYPE line can raise the range error: the other categories always complete. -/
theorem memType_of_exec_fault {l : Line} {i : Instr} {s : State} {f : Fault} (h : decode l = .instr i)
    (hf : exec i s = .fault f) : ∃ op, classify (splitLine l).1 = .memType op := by
  have hnot : ¬ ∃ t, exec i s = .next t := by
    rintro ⟨t, ht⟩
    rw [hf] at ht
    exact nomatch ht
  obtain ⟨op, -, hp⟩ | ⟨op, -, hp⟩ | ⟨op, hc, -⟩ | ⟨op, -, hp⟩ := decode_eq_instr h
  · obtain ⟨_, _, _, _, _, _, -, -, -, -, rfl⟩ := parseR_eq_ok hp
    exact absurd (ROp.exec_next _ _ _ _ s) hnot
  · obtain ⟨_, _, _, _, _, _, -, -, -, -, rfl⟩ := parseI_eq_ok hp
    exact absurd (IOp.exec_next _ _ _ _ s) hnot
  · exact ⟨op, hc⟩
  · obtain ⟨_, _, _, _, -, -, -, rfl⟩ := parseU_eq_ok hp
    exact absurd (UOp.exec_next _ _ _ s) hnot

/-- Settles O40: the code is read off the decoder's answer, and for an instruction off the way it
ends. -/
theorem everyLineReturnsAnAllowedOutcome : Obligations.EveryLineReturnsAnAllowedOutcome := by
  intro l s
  rw [← decode_eq_skipped]
  cases hd : decode l with
  | instr i =>
    obtain ⟨t, ht, -⟩ | ⟨hf, ht⟩ := stepText_instr_cases s hd
    · exact ⟨.ok, by rw [ht], by simp⟩
    · exact ⟨.addressOutOfRange, by rw [ht], by simp [memType_of_exec_fault hd hf]⟩
  | skipped => exact ⟨.skipped, by rw [stepText_skipped s hd], by simp⟩
  | error e =>
    refine ⟨(Fault.ofDecodeError e).code, by rw [stepText_error s hd], ?_⟩
    cases e with
    | invalidInstruction => simp [Fault.ofDecodeError, Fault.code]
    | invalidOperand => simp [Fault.ofDecodeError, Fault.code]

theorem Fault.two_le_num_code (f : Fault) : 2 ≤ f.code.num := by
  cases f <;> decide

/-- Everything a call can answer: OK with `x0` at 0, SKIPPED with the registers and the store as they
were, or an error with nothing changed (60_exceptions.md R101, R107). -/
theorem stepText_cases (l : Line) (s : State) :
    (∃ t, stepText l s = (some .ok, t) ∧ t.reg 0 = 0) ∨
    stepText l s = (some .skipped, s.returning .skipped) ∨
    ∃ f : Fault, stepText l s = (some f.code, s) := by
  cases hd : decode l with
  | instr i =>
    obtain ht | ⟨-, hf⟩ := stepText_instr_cases s hd
    · exact .inl ht
    · exact .inr (.inr ⟨.addressOutOfRange, hf⟩)
  | skipped => exact .inr (.inl (stepText_skipped s hd))
  | error e => exact .inr (.inr ⟨_, stepText_error s hd⟩)

/-- Settles O41. -/
theorem errorOutcomeChangesNoState : Obligations.ErrorOutcomeChangesNoState := by
  intro l s t c h
  obtain ⟨u, hu, hzero⟩ | hu | ⟨f, hu⟩ := stepText_cases l s <;>
    obtain ⟨⟨⟩, ⟨⟩⟩ := Prod.mk.inj (hu.symm.trans h)
  · exact ⟨by simp [OutcomeCode.num], by simp [OutcomeCode.num], fun _ => hzero⟩
  · exact ⟨by simp [OutcomeCode.num], fun _ => ⟨rfl, rfl⟩, by simp [OutcomeCode.num]⟩
  · have hnum := f.two_le_num_code
    exact ⟨fun _ => rfl, fun h1 => by omega, fun h0 => by omega⟩

/-! ## Runs -/

theorem exec_next_lines {i : Instr} {s t : State} (h : exec i s = .next t) : t.lines = s.lines := by
  obtain ⟨rd, v, -, rfl⟩ | ⟨rd, off, rs2, -, -, rfl⟩ | ⟨r, off, rs2, -, -, rfl⟩ :=
    exec_next_cases h <;> rfl

theorem step_next_lines {s t : State} (h : step s = .next t) : t.lines = s.lines.drop 1 := by
  obtain ⟨hs, rfl⟩ | ⟨l, rest, hs, -, rfl⟩ | ⟨l, rest, i, hs, -, he⟩ := step_next_cases h
  · rw [hs, List.drop_nil]
  · rw [hs]
    rfl
  · rw [exec_next_lines he, hs]
    rfl

section
variable {M : Host.Core} {k : Nat}

theorem run_succ_of_next {s t : M.State} (h : M.step s = .next t) : M.run (k + 1) s = M.run k t := by
  rw [Host.Core.run, h]

theorem run_succ_of_fault {s : M.State} {f : M.Fault} (h : M.step s = .fault f) :
    M.run (k + 1) s = .fault f := by
  rw [Host.Core.run, h]

/-- A run of one step or more that answers a next state has a first step that does. -/
theorem step_of_run_next {s t : M.State} (h : M.run (k + 1) s = .next t) :
    ∃ u, M.step s = .next u ∧ M.run k u = .next t := by
  rw [Host.Core.run] at h
  split at h
  · next u hu => exact ⟨u, hu, h⟩
  · exact nomatch h
  · exact nomatch h

/-- A run may be made in two parts. -/
theorem run_add (j : Nat) {s₀ s : M.State} (h : M.run k s₀ = .next s) :
    M.run (k + j) s₀ = M.run j s := by
  induction k generalizing s₀ with
  | zero =>
    obtain rfl := Host.Outcome.next.inj h
    rw [Nat.zero_add]
  | succ k ih =>
    obtain ⟨u, hu, ht⟩ := step_of_run_next h
    rw [Nat.add_right_comm, run_succ_of_next hu, ih ht]

/-- A fault of the next step is the answer of every longer run. -/
theorem run_stops_at_fault {s₀ s : M.State} {f : M.Fault} (h : M.run k s₀ = .next s)
    (hf : M.step s = .fault f) (j : Nat) : M.run (k + 1 + j) s₀ = .fault f := by
  rw [Nat.add_assoc, run_add (1 + j) h, Nat.add_comm 1 j, run_succ_of_fault hf]

theorem run_goes_on {s₀ s t : M.State} (h : M.run k s₀ = .next s) (ht : M.step s = .next t) :
    M.run (k + 1) s₀ = .next t := by
  rw [run_add 1 h, run_succ_of_next ht, Host.Core.run]

end

/-- Settles O42. -/
theorem runTakesLinesInOrder : Obligations.RunTakesLinesInOrder := by
  intro k
  induction k with
  | zero =>
    intro s t h
    obtain rfl := Host.Outcome.next.inj h
    rfl
  | succ k ih =>
    intro s t h
    obtain ⟨u, hu, ht⟩ := step_of_run_next h
    rw [ih u t ht, step_next_lines hu, List.drop_drop, Nat.add_comm]

/-- Settles O43. -/
theorem errorLineFaultsTheRunAndNothingElseDoes :
    Obligations.ErrorLineFaultsTheRunAndNothingElseDoes := by
  intro k s₀ s l rest h hs
  have hstop : ∀ f, step s = .fault f → step s = .fault f ∧
      ∀ j, Host.Core.run Sys2Proof.core (k + 1 + j) s₀ = .fault f :=
    fun f hf => ⟨hf, run_stops_at_fault h hf⟩
  refine ⟨fun hd => hstop _ (step_of_error hs hd), fun hd => hstop _ (step_of_error hs hd),
    fun i hd hf => hstop _ ((step_of_instr hs hd).trans hf),
    fun hd => ⟨_, step_of_skipped hs hd, run_goes_on h (step_of_skipped hs hd)⟩, fun hnot => ?_⟩
  cases hd : decode l with
  | instr i =>
    rw [step_of_instr hs hd] at hnot
    exact .inr (.inr ⟨i, rfl, (exec_not_next hnot).1⟩)
  | skipped => exact absurd (step_of_skipped hs hd) (hnot _)
  | error e =>
    cases e with
    | invalidInstruction => exact .inl rfl
    | invalidOperand => exact .inr (.inl rfl)

end Sys2Proof.Machine
end
